-- ==== Sys2Proof/Word.lean ====
section
/-! DEFINITION. The one word type of the engine: the byte (spec/00_scope.md R7, R8). -/

namespace Sys2Proof

/-- A byte, an unsigned integer in 0..255 (R7, R8). Registers, memory cells, opcodes and operands
are bytes; addresses and the program counter are natural numbers (R6). -/
abbrev Byte := BitVec 8

end Sys2Proof
end

