-- ==== Sys2Proof/Machine/Flags.lean ====
section
/-! DEFINITION. The equal flag: how CMP computes it and how the jumps read it. It is the only flag
(spec/10_state.md R29). -/

namespace Sys2Proof.Machine

/-- The value CMP gives FL (41_alu.md R117). -/
def equalFlag (a b : Byte) : Bool :=
  a == b

/-- Whether JEQ is taken (42_branch.md R141). -/
def jeqTaken (fl : Bool) : Bool :=
  fl

/-- Whether JNE is taken (42_branch.md R142). -/
def jneTaken (fl : Bool) : Bool :=
  !fl

end Sys2Proof.Machine
end

