-- ==== Sys2Proof/Config.lean ====
section
/-! DEFINITION. What is fixed when an engine is built (spec/00_scope.md R5): the parameters and the
mnemonics that the opcode map assigns bytes to. The default opcode map itself is in Decode.lean. -/

namespace Sys2Proof

/-- The 17 implemented and 6 reserved mnemonics (00_scope.md R2; 30_encoding.md R76). -/
inductive Mnemonic where
  | nop | ldi | lds | add | sub | mul | div | inc | dec | cmp | jmp | jeq | jne | psh | pop | prn | hlt
  | cal | ret | int | irt | str | pra
  deriving DecidableEq, Repr

/-- Every mnemonic, once. -/
def Mnemonic.all : List Mnemonic :=
  [.nop, .ldi, .lds, .add, .sub, .mul, .div, .inc, .dec, .cmp, .jmp, .jeq, .jne, .psh, .pop, .prn,
   .hlt, .cal, .ret, .int, .irt, .str, .pra]

/-- The six reserved mnemonics (44_machine_control.md R164). -/
def Mnemonic.isReserved : Mnemonic → Bool
  | .cal | .ret | .int | .irt | .str | .pra => true
  | .nop | .ldi | .lds | .add | .sub | .mul | .div | .inc | .dec | .cmp | .jmp | .jeq | .jne | .psh
  | .pop | .prn | .hlt => false

/-- The number of operand bytes an opcode takes (30_encoding.md R70, R76). A reserved opcode
consumes none (R164). -/
def Mnemonic.arity : Mnemonic → Nat
  | .nop | .hlt => 0
  | .inc | .dec | .jmp | .jeq | .jne | .psh | .pop | .prn => 1
  | .ldi | .lds | .add | .sub | .mul | .div | .cmp => 2
  | .cal | .ret | .int | .irt | .str | .pra => 0

/-- The parameter OPCODE: a byte for each of the 23 mnemonics (00_scope.md R5; 30_encoding.md R76). -/
abbrev OpcodeMap := Mnemonic → Byte

/-- The two readings of LDS that the source gives (93_implementation_defined.md U6). -/
inductive LdsMode where
  /-- `x[a] <- x[x[b]]`, the reading the spec rules (40_load.md R101, 90_conflicts.md C1). -/
  | register
  /-- `x[a] <- M[x[b]]`, the overruled reading, kept so that a claim can be checked under both. -/
  | memory
  deriving DecidableEq, Repr

namespace Config

/-- The default of MEM_SIZE (00_scope.md R5). An engine's own MEM_SIZE is the length of its memory
value, `Memory.size`. -/
def memSize : Nat := 256

/-- SP_INIT, the reset value of R7 (00_scope.md R5). -/
def spInit : Byte := 0xF8#8

/-- The index of the stack-pointer register (10_state.md R22). -/
def spIndex : Fin 8 := 7

/-- What a memory cell holds at construction, and so what an unlisted cell reads as (20_memory.md R50). -/
def blankCell : Byte := 0x00#8

end Config

end Sys2Proof
end

