-- ==== Sys2Proof/Machine/State.lean ====
section
/-! DEFINITION. Everything the spec gives the machine to remember (spec/10_state.md R39), as plain data,
and its value after reset (R38). -/

namespace Sys2Proof.Machine

/-- Why a step could stop outside the state. NO constructor: every stop of this engine is a halt that the
spec describes as a state (RUN, CAUSE and the fault registers, 10_state.md R31 to R33), so it is a
next state, and no behaviour is left without one (log entry 3). Safe: nothing is refused. -/
inductive Fault
  deriving DecidableEq, Repr

/-- Why an instruction could have no meaning. -/
inductive Refusal where
  /-- Raised only by an arm of `exec` whose instruction has no meaning yet; no arm is left so. Safe:
  the model stops where the engine goes on. -/
  | notModelled (mnemonic : String)
  deriving DecidableEq, Repr

/-- The run state RUN (10_state.md R31). -/
inductive RunState where
  | running
  | halted
  deriving DecidableEq, Repr

/-- The values of CAUSE that are ever written (10_state.md R32); codes 6 and 7 are unused. -/
inductive HaltCause where
  | none
  | hlt
  | invalidOpcode
  | reservedOpcode
  | addressOutOfRange
  | illegalRegister
  deriving DecidableEq, Repr

/-- The kinds of memory access, the values of FKIND (10_state.md R33). -/
inductive AccessKind where
  | opcodeFetch
  | operandFetch
  | dataRead
  | dataWrite
  deriving DecidableEq, Repr

/-- A condition that a cycle raises, with the information it records (60_exceptions.md R180). -/
inductive Trap where
  /-- An access of the kind at an address at or beyond MEM_SIZE (R182). -/
  | addressOutOfRange (addr : Nat) (kind : AccessKind)
  /-- A register operand byte, or an LDS index value, of 8 or more (R185). -/
  | illegalRegister (index : Byte)
  deriving DecidableEq, Repr

/-- The memory array M and its length MEM_SIZE (20_memory.md R50). A cell that is not listed holds
`Config.blankCell`. The length is fixed at construction (log entry 2). -/
structure Memory where
  size : Nat
  cells : List Host.Cell
  deriving DecidableEq, Repr

/-- The canonical form: addresses strictly rising and inside the array, no listed cell blank. -/
abbrev Memory.wf (m : Memory) : Prop :=
  m.cells.Pairwise (fun c d => c.1 < d.1) ∧ ∀ c ∈ m.cells, c.1 < m.size ∧ c.2 ≠ Config.blankCell

/-- The complete state (10_state.md R39). -/
structure State where
  /-- R0 to R7, R7 = SP (R20, R22). -/
  regs : Vector Byte 8
  /-- The program counter, a natural number that never wraps (R24). -/
  pc : Nat
  /-- IR, the most recently fetched opcode (R28). -/
  ir : Byte
  /-- FL, the equal flag (R29). -/
  fl : Bool
  /-- RUN (R31). -/
  run : RunState
  /-- CAUSE (R32). -/
  cause : HaltCause
  /-- FADDR (R33). -/
  faddr : Nat
  /-- FKIND (R33). -/
  fkind : AccessKind
  /-- FREG (R33). -/
  freg : Byte
  /-- M and its length (20_memory.md R50). -/
  mem : Memory
  /-- OUT, oldest first (R34). -/
  out : List Byte
  /-- EN, the host's run enable (R35). -/
  en : Bool
  deriving DecidableEq, Repr

/-- The state after reset of an engine with `size` memory cells (R38, 70_reset_and_hazards.md R210). -/
def State.resetWith (size : Nat) : State where
  regs := #v[0x00#8, 0x00#8, 0x00#8, 0x00#8, 0x00#8, 0x00#8, 0x00#8, Config.spInit]
  pc := 0
  ir := 0x00#8
  fl := false
  run := .running
  cause := .none
  faddr := 0
  fkind := .opcodeFetch
  freg := 0x00#8
  mem := { size := size, cells := [] }
  out := []
  en := false

/-- The state after reset at the default MEM_SIZE. EN is 0, so the engine waits for the host (R35). -/
def State.reset : State :=
  State.resetWith Config.memSize

end Sys2Proof.Machine
end

