-- ==== Sys2Proof/Machine/Ops.lean ====
section
/-! DEFINITION. The named operations on registers, memory, the output and the halt, which every
instruction's meaning is built from. -/

namespace Sys2Proof.Machine

/-- What a meaning or a step answers. -/
abbrev Result := Host.Outcome State Fault Refusal

/-! ### Registers, program counter, flag, instruction register -/

/-- `x[i]` (00_scope.md R9). -/
def State.reg (s : State) (i : Fin 8) : Byte :=
  s.regs[i]

/-- `x[i] <- v`; the value is a byte, so the mask of 10_state.md R21 is its type. -/
def State.setReg (s : State) (i : Fin 8) (v : Byte) : State :=
  { s with regs := s.regs.set i v }

/-- SP, the other name of R7 (10_state.md R22). -/
def State.sp (s : State) : Byte :=
  s.reg Config.spIndex

/-- `pc <- target` (10_state.md R25). -/
def State.setPc (s : State) (target : Nat) : State :=
  { s with pc := target }

/-- The fall-through of an instruction of `n` bytes: `pc <- a0 + n` (10_state.md R25; 30_encoding.md
R88). -/
def State.advance (s : State) (n : Nat) : State :=
  s.setPc (s.pc + n)

/-- `IR <- opcode` (10_state.md R28). -/
def State.setIr (s : State) (opcode : Byte) : State :=
  { s with ir := opcode }

/-- `FL <- b` (10_state.md R29). -/
def State.setFl (s : State) (b : Bool) : State :=
  { s with fl := b }

/-- `Emit(v)`: OUT <- OUT ++ [v] (44_machine_control.md R161). -/
def State.emit (s : State) (v : Byte) : State :=
  { s with out := s.out ++ [v] }

/-- `EN <- b` (70_reset_and_hazards.md R214). -/
def State.setEn (s : State) (b : Bool) : State :=
  { s with en := b }

/-- `M <- m`. -/
def State.setMem (s : State) (m : Memory) : State :=
  { s with mem := m }

/-! ### Memory -/

/-- The byte at an address: the listed one, or the blank byte. -/
def cellsRead : List Host.Cell → Nat → Byte
  | [], _ => Config.blankCell
  | c :: cs, a => if c.1 = a then c.2 else cellsRead cs a

/-- The list without the address. -/
def cellsErase : List Host.Cell → Nat → List Host.Cell
  | [], _ => []
  | c :: cs, a => if c.1 = a then cellsErase cs a else c :: cellsErase cs a

/-- The list with a cell put before the first greater address. -/
def cellsInsert : List Host.Cell → Nat → Byte → List Host.Cell
  | [], a, v => [(a, v)]
  | c :: cs, a, v => if a < c.1 then (a, v) :: c :: cs else c :: cellsInsert cs a v

/-- Store one byte, keeping the canonical form: a blank byte is not listed. -/
def cellsWrite (cs : List Host.Cell) (a : Nat) (v : Byte) : List Host.Cell :=
  if v = Config.blankCell then cellsErase cs a else cellsInsert (cellsErase cs a) a v

/-- The byte at an address of the array, or none when the address does not exist (20_memory.md R50,
R51). -/
def Memory.byte? (m : Memory) (a : Nat) : Option Byte :=
  if a < m.size then some (cellsRead m.cells a) else none

/-- `M[a] <- v` inside the array; outside it no cell changes (20_memory.md R52). -/
def Memory.set (m : Memory) (a : Nat) (v : Byte) : Memory :=
  if a < m.size then { m with cells := cellsWrite m.cells a v } else m

/-- The bytes that exist at `n` ascending addresses (20_memory.md R55). -/
def Memory.bytesFrom (m : Memory) (a : Nat) : Nat → List Byte
  | 0 => []
  | n + 1 =>
    match m.byte? a with
    | some b => b :: m.bytesFrom (a + 1) n
    | none => []

/-- Bytes stored at ascending addresses (20_memory.md R55). -/
def Memory.setBytes (m : Memory) (a : Nat) : List Byte → Memory
  | [] => m
  | b :: bs => (m.set a b).setBytes (a + 1) bs

/-- `MemRead(addr, 1)` for an access of the given kind (20_memory.md R51). -/
def memRead (kind : AccessKind) (a : Nat) (s : State) : Except Trap Byte :=
  match s.mem.byte? a with
  | some v => .ok v
  | none => .error (.addressOutOfRange a kind)

/-- `MemWrite(addr, 1, v)` (20_memory.md R52). -/
def memWrite (a : Nat) (v : Byte) (s : State) : Except Trap State :=
  if a < s.mem.size then .ok (s.setMem (s.mem.set a v)) else .error (.addressOutOfRange a .dataWrite)

/-! ### Halting and taking a trap -/

/-- `halt(cause)`: RUN <- HALTED and CAUSE <- cause (00_scope.md R9; 10_state.md R31, R32). -/
def State.halt (s : State) (cause : HaltCause) : State :=
  { s with run := .halted, cause := cause }

/-- `raise F(info)`, the engine's one way to take an exception (30_encoding.md R89; 10_state.md R33):
the engine halts with the condition's cause and information, and everything else of the state it is
applied to stands, pc among it. A fault register of another condition is left alone (log entry 14).
There is no handler to enter and nothing to return from (60_exceptions.md R190, R191). -/
def State.raise (s : State) : Trap → State
  | .addressOutOfRange a kind => { s with faddr := a, fkind := kind }.halt .addressOutOfRange
  | .illegalRegister b => { s with freg := b }.halt .illegalRegister

/-- The end of an instruction that began in `s`: its new state, or the trap it raised taken in `s`, so
that none of its own effects happen (30_encoding.md R89). -/
def complete (s : State) : Except Trap State → Result
  | .ok t => .next t
  | .error e => .next (s.raise e)

/-! ### When a cycle may start -/

/-- RUN = RUNNING and EN = 1 (30_encoding.md R82). -/
def State.canCycle (s : State) : Bool :=
  s.run == .running && s.en

end Sys2Proof.Machine
end

