-- ==== Sys2Proof/Machine/Operands.lean ====
section
/-! DEFINITION. The operand forms (spec/30_encoding.md R72 to R75; 42_branch.md R143). -/

namespace Sys2Proof.Machine

/-- The operand byte that names a register (30_encoding.md R74). -/
def regByte (i : Fin 8) : Byte :=
  BitVec.ofNat 8 i.val

/-- `reg(b)`: the register that an operand byte names. The whole byte is compared (30_encoding.md
R74). -/
def regIndex (b : Byte) : Except Trap (Fin 8) :=
  if h : b.toNat < 8 then .ok ⟨b.toNat, h⟩ else .error (.illegalRegister b)

/-- Two register operands, operand 1 checked first (60_exceptions.md R188 step 4). -/
def regPair (a b : Byte) : Except Trap (Fin 8 × Fin 8) := do
  let i ← regIndex a
  let j ← regIndex b
  .ok (i, j)

/-- An immediate operand, used as it stands (30_encoding.md R75). -/
def immediate (imm : Byte) : Byte :=
  imm

/-- `zext(v)`: a register byte as a program-counter value (00_scope.md R8; 42_branch.md R143). -/
def zext (v : Byte) : Nat :=
  v.toNat

end Sys2Proof.Machine
end

