-- ==== Sys2Proof/Machine/Alu.lean ====
section
/-! DEFINITION. The ALU and the instructions ADD, SUB, MUL, DIV, INC, DEC and CMP (spec/41_alu.md). -/

namespace Sys2Proof.Machine

/-- The ALU's operations (R110). -/
inductive AluOp where
  | add | sub | mul | div | inc | dec | cmp
  deriving DecidableEq, Repr

/-- The ALU's outputs: the result, none when the "no write" output is asserted, and the equality
output, which only CMP's rule uses (R110; log entry 15). -/
structure AluOut where
  result : Option Byte
  equal : Bool
  deriving DecidableEq, Repr

/-- The result of an operation on two bytes, reduced modulo 256 by its type (R111 to R118). DIV by zero
and CMP write nothing (R110, R114, R117). -/
def aluResult (op : AluOp) (a b : Byte) : Option Byte :=
  match op with
  | .add => some (a + b)
  | .sub => some (a - b)
  | .mul => some (a * b)
  | .div => if b = 0x00#8 then none else some (a / b)
  | .inc => some (a + 1)
  | .dec => some (a - 1)
  | .cmp => none

/-- `apply(op, a, b)`, a pure function of two byte values (R110; 30_encoding.md R84). -/
def aluApply (op : AluOp) (a b : Byte) : AluOut where
  result := aluResult op a b
  equal := equalFlag a b

/-- The handler's write back into the first operand's register (R110). -/
def State.writeBack (s : State) (i : Fin 8) (o : AluOut) : State :=
  match o.result with
  | some v => s.setReg i v
  | none => s

/-- A two-register arithmetic instruction. -/
def aluTwo (op : AluOp) (a b : Byte) (s : State) : Except Trap State := do
  let ij ← regPair a b
  .ok ((s.writeBack ij.1 (aluApply op (s.reg ij.1) (s.reg ij.2))).advance 3)

/-- A one-register arithmetic instruction; the ALU's second input is not used. -/
def aluOne (op : AluOp) (r : Byte) (s : State) : Except Trap State := do
  let i ← regIndex r
  .ok ((s.writeBack i (aluApply op (s.reg i) (s.reg i))).advance 2)

/-- ADD (R111). -/
def execAdd (a b : Byte) (s : State) : Result :=
  complete s (aluTwo .add a b s)

/-- SUB (R112). -/
def execSub (a b : Byte) (s : State) : Result :=
  complete s (aluTwo .sub a b s)

/-- MUL (R113). -/
def execMul (a b : Byte) (s : State) : Result :=
  complete s (aluTwo .mul a b s)

/-- DIV (R114): a zero divisor writes nothing and the pc still advances. -/
def execDiv (a b : Byte) (s : State) : Result :=
  complete s (aluTwo .div a b s)

/-- INC (R115). -/
def execInc (r : Byte) (s : State) : Result :=
  complete s (aluOne .inc r s)

/-- DEC (R116). -/
def execDec (r : Byte) (s : State) : Result :=
  complete s (aluOne .dec r s)

/-- CMP (R117): it writes FL and no register. -/
def execCmp (a b : Byte) (s : State) : Result :=
  complete s do
    let ij ← regPair a b
    .ok ((s.setFl (aluApply .cmp (s.reg ij.1) (s.reg ij.2)).equal).advance 3)

end Sys2Proof.Machine
end

