-- ==== Sys2Proof/Machine/Branch.lean ====
section
/-! DEFINITION. Control transfer: JMP, JEQ and JNE (spec/42_branch.md). -/

namespace Sys2Proof.Machine

/-- A jump to the address a register holds, when `taken`, else the next instruction. The register is
checked either way, and the target is not checked at all (R140 to R143). -/
def jumpIf (taken : Bool) (r : Byte) (s : State) : Except Trap State := do
  let i ← regIndex r
  .ok (if taken then s.setPc (zext (s.reg i)) else s.advance 2)

/-- JMP (R140). -/
def execJmp (r : Byte) (s : State) : Result :=
  complete s (jumpIf true r s)

/-- JEQ (R141). -/
def execJeq (r : Byte) (s : State) : Result :=
  complete s (jumpIf (jeqTaken s.fl) r s)

/-- JNE (R142). -/
def execJne (r : Byte) (s : State) : Result :=
  complete s (jumpIf (jneTaken s.fl) r s)

end Sys2Proof.Machine
end

