-- ==== Sys2Proof/Machine/Control.lean ====
section
/-! DEFINITION. Machine control: NOP, PRN, HLT, the reserved opcodes and the invalid opcodes
(spec/44_machine_control.md). -/

namespace Sys2Proof.Machine

/-- NOP (R160). -/
def execNop (s : State) : Result :=
  complete s (.ok (s.advance 1))

/-- PRN (R161). -/
def execPrn (r : Byte) (s : State) : Result :=
  complete s do
    let i ← regIndex r
    .ok ((s.emit (s.reg i)).advance 2)

/-- HLT (R162): the pc advances, then the engine halts. -/
def execHlt (s : State) : Result :=
  complete s (.ok ((s.advance 1).halt .hlt))

/-- What every reserved opcode does: the halt, and nothing beyond it (R164). -/
def reservedHalt (s : State) : Except Trap State :=
  .ok (s.halt .reservedOpcode)

/-- RET, reserved (R164). -/
def execRet (s : State) : Result :=
  complete s (reservedHalt s)

/-- IRT, reserved (R164). -/
def execIrt (s : State) : Result :=
  complete s (reservedHalt s)

/-- PRA, reserved (R164). -/
def execPra (s : State) : Result :=
  complete s (reservedHalt s)

/-- CAL, reserved (R164). -/
def execCal (s : State) : Result :=
  complete s (reservedHalt s)

/-- INT, reserved (R164). -/
def execInt (s : State) : Result :=
  complete s (reservedHalt s)

/-- STR, reserved (R164). -/
def execStr (s : State) : Result :=
  complete s (reservedHalt s)

/-- An invalid opcode byte (R163): the halt; IR holds the byte since the fetch (30_encoding.md R85). -/
def execInvalid (_opcode : Byte) (s : State) : Result :=
  complete s (.ok (s.halt .invalidOpcode))

end Sys2Proof.Machine
end

