-- ==== Sys2Proof/Machine/Load.lean ====
section
/-! DEFINITION. The register loads LDI and LDS (spec/40_load.md). -/

namespace Sys2Proof.Machine

/-- The reading of LDS that the engine has: the register file is indexed (40_load.md R101;
90_conflicts.md C1; log entry 7). -/
def ldsMode : LdsMode :=
  .register

/-- The byte LDS loads for an index value, under either reading (R101; 93_implementation_defined.md
U6). An index value of 8 or more names no register. -/
def ldsSource (mode : LdsMode) (index : Byte) (s : State) : Except Trap Byte :=
  match mode with
  | .register => do
    let i ← regIndex index
    .ok (s.reg i)
  | .memory => memRead .dataRead index.toNat s

/-- LDS under a given reading. Both register operands are checked before the index value (R101). -/
def ldsBody (mode : LdsMode) (a b : Byte) (s : State) : Except Trap State := do
  let ij ← regPair a b
  let v ← ldsSource mode (s.reg ij.2) s
  .ok ((s.setReg ij.1 v).advance 3)

/-- LDI (R100). -/
def execLdi (r imm : Byte) (s : State) : Result :=
  complete s do
    let i ← regIndex r
    .ok ((s.setReg i (immediate imm)).advance 3)

/-- LDS (R101). -/
def execLds (a b : Byte) (s : State) : Result :=
  complete s (ldsBody ldsMode a b s)

end Sys2Proof.Machine
end

