-- ==== Sys2Proof/Machine/Stack.lean ====
section
/-! DEFINITION. The stack instructions PSH and POP (spec/43_stack.md). -/

namespace Sys2Proof.Machine

/-- The address PSH stores to and the SP it leaves: `(x[7] - 1) mod 256` (R151). -/
def pushSp (s : State) : Byte :=
  s.sp - 1

/-- The value PSH stores: the register's value after the decrement, so the new SP for R7 (R151). -/
def pushValue (s : State) (i : Fin 8) : Byte :=
  if i = Config.spIndex then pushSp s else s.reg i

/-- PSH (R151): the address is checked before anything is written. -/
def execPsh (r : Byte) (s : State) : Result :=
  complete s do
    let i ← regIndex r
    let t ← memWrite (pushSp s).toNat (pushValue s i) s
    .ok ((t.setReg Config.spIndex (pushSp s)).advance 2)

/-- POP (R152): the increment applies to R7 as it stands after the load. -/
def execPop (r : Byte) (s : State) : Result :=
  complete s do
    let i ← regIndex r
    let v ← memRead .dataRead s.sp.toNat s
    let t := s.setReg i v
    .ok ((t.setReg Config.spIndex (t.sp + 1)).advance 2)

end Sys2Proof.Machine
end

