-- ==== Sys2Proof/Syntax.lean ====
section
/-! DEFINITION. The instructions: one constructor for each row of spec/opcode_table.json. -/

namespace Sys2Proof

/-- An instruction with its operand bytes, as the cycle has them after operand fetch
(30_encoding.md R72, R87). A register operand is the whole byte: whether it names a register is
checked when the instruction executes (30_encoding.md R74; 60_exceptions.md R188 step 4). -/
inductive Instr where
  | nop
  | hlt
  | prn (r : Byte)
  | pop (r : Byte)
  | psh (r : Byte)
  | jmp (r : Byte)
  | jeq (r : Byte)
  | jne (r : Byte)
  | inc (r : Byte)
  | dec (r : Byte)
  | lds (a b : Byte)
  | ldi (r imm : Byte)
  | cmp (a b : Byte)
  | add (a b : Byte)
  | sub (a b : Byte)
  | mul (a b : Byte)
  | div (a b : Byte)
  | ret
  | irt
  | pra
  | cal
  | int
  | str
  /-- An opcode byte with no dispatch entry and not reserved (30_encoding.md R78). -/
  | invalid (opcode : Byte)
  deriving DecidableEq, Repr

/-- The mnemonic of an instruction; an invalid opcode byte has none. -/
def Instr.mnemonic : Instr → Option Mnemonic
  | .nop => some .nop
  | .hlt => some .hlt
  | .prn _ => some .prn
  | .pop _ => some .pop
  | .psh _ => some .psh
  | .jmp _ => some .jmp
  | .jeq _ => some .jeq
  | .jne _ => some .jne
  | .inc _ => some .inc
  | .dec _ => some .dec
  | .lds _ _ => some .lds
  | .ldi _ _ => some .ldi
  | .cmp _ _ => some .cmp
  | .add _ _ => some .add
  | .sub _ _ => some .sub
  | .mul _ _ => some .mul
  | .div _ _ => some .div
  | .ret => some .ret
  | .irt => some .irt
  | .pra => some .pra
  | .cal => some .cal
  | .int => some .int
  | .str => some .str
  | .invalid _ => none

/-- The register operand bytes in the order they are checked (30_encoding.md R72, R74;
60_exceptions.md R188 step 4). -/
def Instr.regOperands : Instr → List Byte
  | .nop | .hlt | .ret | .irt | .pra | .cal | .int | .str | .invalid _ => []
  | .prn r | .pop r | .psh r | .jmp r | .jeq r | .jne r | .inc r | .dec r => [r]
  | .ldi r _ => [r]
  | .lds a b | .cmp a b | .add a b | .sub a b | .mul a b | .div a b => [a, b]

/-- The number of bytes an instruction occupies: one and its operand count (30_encoding.md R70, R72,
R79). A reserved or invalid opcode halts on its one byte. -/
def Instr.length : Instr → Nat
  | .nop | .hlt | .ret | .irt | .pra | .cal | .int | .str | .invalid _ => 1
  | .prn _ | .pop _ | .psh _ | .jmp _ | .jeq _ | .jne _ | .inc _ | .dec _ => 2
  | .ldi _ _ | .lds _ _ | .cmp _ _ | .add _ _ | .sub _ _ | .mul _ _ | .div _ _ => 3

end Sys2Proof
end

