-- ==== Sys2Proof/Machine/Dispatch.lean ====
section
/-! DEFINITION. The dispatch of each instruction to its meaning (spec/30_encoding.md R83, R88, R91). -/

namespace Sys2Proof.Machine

/-- Execute and commit: the rule of the instruction, in a state whose IR already holds the opcode
(30_encoding.md R88; log entry 13). -/
def exec (i : Instr) (s : State) : Host.Outcome State Fault Refusal :=
  match i with
  | .nop => Sys2Proof.Machine.execNop s
  | .hlt => Sys2Proof.Machine.execHlt s
  | .prn r => Sys2Proof.Machine.execPrn r s
  | .pop r => Sys2Proof.Machine.execPop r s
  | .psh r => Sys2Proof.Machine.execPsh r s
  | .jmp r => Sys2Proof.Machine.execJmp r s
  | .jeq r => Sys2Proof.Machine.execJeq r s
  | .jne r => Sys2Proof.Machine.execJne r s
  | .inc r => Sys2Proof.Machine.execInc r s
  | .dec r => Sys2Proof.Machine.execDec r s
  | .lds a b => Sys2Proof.Machine.execLds a b s
  | .ldi r imm => Sys2Proof.Machine.execLdi r imm s
  | .cmp a b => Sys2Proof.Machine.execCmp a b s
  | .add a b => Sys2Proof.Machine.execAdd a b s
  | .sub a b => Sys2Proof.Machine.execSub a b s
  | .mul a b => Sys2Proof.Machine.execMul a b s
  | .div a b => Sys2Proof.Machine.execDiv a b s
  | .ret => Sys2Proof.Machine.execRet s
  | .irt => Sys2Proof.Machine.execIrt s
  | .pra => Sys2Proof.Machine.execPra s
  | .cal => Sys2Proof.Machine.execCal s
  | .int => Sys2Proof.Machine.execInt s
  | .str => Sys2Proof.Machine.execStr s
  | .invalid opcode => Sys2Proof.Machine.execInvalid opcode s

end Sys2Proof.Machine
end

