-- ==== Sys2Proof/WellFormed.lean ====
section
/-! DEFINITION. Which opcode maps are admissible, and which instructions are well formed. -/

namespace Sys2Proof

/-- What 30_encoding.md R76 and R71 ask of an opcode map. -/
structure OpcodeMap.Admissible (map : OpcodeMap) : Prop where
  /-- R76, condition 1: no two mnemonics share a byte. -/
  injective : ∀ m n : Mnemonic, map m = map n → m = n
  /-- R76, conditions 2 and 3: bits [7:6] of an implemented opcode are its arity. -/
  topBits : ∀ m : Mnemonic, m.isReserved = false → ((map m).extractLsb 7 6).toNat = m.arity
  /-- R71: no opcode has 0b11 in bits [7:6], the reserved ones included (log entry 6, DEDUCED). -/
  noTop3 : ∀ m : Mnemonic, (map m).extractLsb 7 6 ≠ 0b11#2

namespace WellFormed

/-- The byte `b` is no opcode of the map, implemented or reserved: the invalid class of
30_encoding.md R78. -/
def isInvalid (map : OpcodeMap) (b : Byte) : Bool :=
  Mnemonic.all.all fun m => map m != b

/-- The instruction has an encoding under the map: an `invalid` byte really is invalid. -/
def encodable (map : OpcodeMap) : Instr → Bool
  | .invalid b => isInvalid map b
  | .nop | .hlt | .prn _ | .pop _ | .psh _ | .jmp _ | .jeq _ | .jne _ | .inc _ | .dec _ | .lds _ _
  | .ldi _ _ | .cmp _ _ | .add _ _ | .sub _ _ | .mul _ _ | .div _ _ | .ret | .irt | .pra | .cal
  | .int | .str => true

/-- Every register operand byte is at most 7 (30_encoding.md R74). -/
def registersLegal (i : Instr) : Bool :=
  i.regOperands.all fun b => decide (b.toNat ≤ 7)

end WellFormed

/-- A well-formed instruction: it has an encoding and names only registers that exist. The decoder
also yields instructions with register bytes of 8 or more, and the engine executes them by the
IllegalRegister halt (R74). -/
def Instr.wellFormed (map : OpcodeMap) (i : Instr) : Bool :=
  WellFormed.encodable map i && WellFormed.registersLegal i

end Sys2Proof
end

