-- ==== Sys2Proof/Decode.lean ====
section
/-! DEFINITION. The opcode map's default instance, the decoder and the encoder (spec/30_encoding.md). -/

namespace Sys2Proof

/-- The default instance of OPCODE (30_encoding.md R77). UNVERIFIED by the spec itself: log entry 1. -/
def defaultOpcodeMap : OpcodeMap
  | .nop => 0b00000000#8
  | .hlt => 0b00000001#8
  | .ret => 0b00001001#8
  | .irt => 0b00001011#8
  | .pra => 0b01000010#8
  | .prn => 0b01000011#8
  | .cal => 0b01001000#8
  | .int => 0b01001010#8
  | .pop => 0b01001100#8
  | .psh => 0b01001101#8
  | .jmp => 0b01010000#8
  | .jeq => 0b01010001#8
  | .jne => 0b01010010#8
  | .inc => 0b01111000#8
  | .dec => 0b01111001#8
  | .lds => 0b10011000#8
  | .ldi => 0b10011001#8
  | .str => 0b10011010#8
  | .cmp => 0b10100000#8
  | .add => 0b10101000#8
  | .sub => 0b10101001#8
  | .mul => 0b10101010#8
  | .div => 0b10101011#8

/-- The dispatch table: the mnemonic whose opcode the byte is, or none for the invalid class (R78).
It depends on the byte and the map alone (R83). -/
def classify (map : OpcodeMap) (opcode : Byte) : Option Mnemonic :=
  Mnemonic.all.find? fun m => map m == opcode

/-- Format F1R: one operand byte (R72). -/
def formatF1 {ε : Type} (operand : Nat → Except ε Byte) (build : Byte → Instr) : Except ε Instr :=
  match operand 1 with
  | .error e => .error e
  | .ok r => .ok (build r)

/-- Formats F2RI and F2RR: two operand bytes, the first fetched first (R72, R87). -/
def formatF2 {ε : Type} (operand : Nat → Except ε Byte) (build : Byte → Byte → Instr) :
    Except ε Instr :=
  match operand 1 with
  | .error e => .error e
  | .ok a =>
    match operand 2 with
    | .error e => .error e
    | .ok b => .ok (build a b)

/-- The instruction of a mnemonic, its operand bytes taken from `operand j` for j = 1..k in increasing
order (R72, R87). A reserved opcode takes no operand byte (R86, 44_machine_control.md R164). -/
def assemble {ε : Type} (m : Mnemonic) (operand : Nat → Except ε Byte) : Except ε Instr :=
  match m with
  | .nop => .ok .nop
  | .hlt => .ok .hlt
  | .ret => .ok .ret
  | .irt => .ok .irt
  | .pra => .ok .pra
  | .cal => .ok .cal
  | .int => .ok .int
  | .str => .ok .str
  | .prn => formatF1 operand .prn
  | .pop => formatF1 operand .pop
  | .psh => formatF1 operand .psh
  | .jmp => formatF1 operand .jmp
  | .jeq => formatF1 operand .jeq
  | .jne => formatF1 operand .jne
  | .inc => formatF1 operand .inc
  | .dec => formatF1 operand .dec
  | .lds => formatF2 operand .lds
  | .ldi => formatF2 operand .ldi
  | .cmp => formatF2 operand .cmp
  | .add => formatF2 operand .add
  | .sub => formatF2 operand .sub
  | .mul => formatF2 operand .mul
  | .div => formatF2 operand .div

/-- Decoding with the operand bytes drawn from any source that may fail: the engine draws them from
memory, `decode` from a list of bytes (R86, R87). -/
def decodeFrom {ε : Type} (map : OpcodeMap) (opcode : Byte) (operand : Nat → Except ε Byte) :
    Except ε Instr :=
  match classify map opcode with
  | none => .ok (.invalid opcode)
  | some m => assemble m operand

/-- Why a byte string decodes to nothing: it is too short. Every opcode byte decodes. -/
inductive DecodeError where
  /-- The string has no opcode byte. -/
  | noOpcode
  /-- The string ends before operand byte `j`. -/
  | missingOperand (j : Nat)
  deriving DecidableEq, Repr

/-- Operand byte `j` (counted from 1) of the bytes that follow an opcode. -/
def listOperand (rest : List Byte) (j : Nat) : Except DecodeError Byte :=
  match rest[j - 1]? with
  | some b => .ok b
  | none => .error (.missingOperand j)

/-- The instruction at the head of a byte string (R70, R72, R78). -/
def decode (map : OpcodeMap) : List Byte → Except DecodeError Instr
  | [] => .error .noOpcode
  | opcode :: rest => decodeFrom map opcode (listOperand rest)

/-- The bytes of an instruction, opcode first, then operand 1, then operand 2 (R72). -/
def encode (map : OpcodeMap) : Instr → List Byte
  | .nop => [map .nop]
  | .hlt => [map .hlt]
  | .prn r => [map .prn, r]
  | .pop r => [map .pop, r]
  | .psh r => [map .psh, r]
  | .jmp r => [map .jmp, r]
  | .jeq r => [map .jeq, r]
  | .jne r => [map .jne, r]
  | .inc r => [map .inc, r]
  | .dec r => [map .dec, r]
  | .lds a b => [map .lds, a, b]
  | .ldi r imm => [map .ldi, r, imm]
  | .cmp a b => [map .cmp, a, b]
  | .add a b => [map .add, a, b]
  | .sub a b => [map .sub, a, b]
  | .mul a b => [map .mul, a, b]
  | .div a b => [map .div, a, b]
  | .ret => [map .ret]
  | .irt => [map .irt]
  | .pra => [map .pra]
  | .cal => [map .cal]
  | .int => [map .int]
  | .str => [map .str]
  | .invalid b => [b]

/-- The longest instruction, in bytes (R70). -/
def maxLength : Nat := 3

/-- The bytes of a word of the opcode table: bits 7..0 are the first byte, bits 15..8 the second,
and every bit at or above `nbits` is 0. Bytes lie at ascending addresses (20_memory.md R55). -/
def tableBytes (nbits w : Nat) : List Byte :=
  (List.range maxLength).map fun j => BitVec.ofNat 8 ((w % 2 ^ nbits) / 2 ^ (8 * j))

/-- The instruction the decoder reads from a word of the opcode table, under the default map. -/
def decodeTableWord (nbits w : Nat) : Option Instr :=
  match decode defaultOpcodeMap (tableBytes nbits w) with
  | .ok i => some i
  | .error _ => none

end Sys2Proof
end

