-- ==== Sys2Proof/Machine/Fetch.lean ====
section
/-! DEFINITION. The fetch and decode half of a cycle (spec/30_encoding.md R85 to R87). -/

namespace Sys2Proof.Machine

/-- What fetching answers: an instruction to execute, or a trap, each with the state it left. -/
inductive Fetched where
  | ready (i : Instr) (s : State)
  | trapped (e : Trap) (s : State)
  deriving DecidableEq, Repr

/-- Step 1's access: the opcode byte at pc (R85). -/
def fetchOpcode (s : State) : Except Trap Byte :=
  memRead .opcodeFetch s.pc s

/-- Operand byte `j`, at `a0 + j` (R87). -/
def fetchOperand (s : State) (j : Nat) : Except Trap Byte :=
  memRead .operandFetch (s.pc + j) s

/-- Steps 1, 2 and the operand fetch of a cycle. IR is written once the opcode is fetched, and a trap
of the opcode fetch leaves it (R85, R89; 10_state.md R28). A reserved or invalid opcode reads no
operand (R86). -/
def fetch (map : OpcodeMap) (s : State) : Fetched :=
  match fetchOpcode s with
  | .error e => .trapped e s
  | .ok opcode =>
    let t := s.setIr opcode
    match decodeFrom map opcode (fetchOperand t) with
    | .error e => .trapped e t
    | .ok i => .ready i t

/-- Where a word of the opcode table is placed for the next fetch: at pc when the longest instruction
fits there, else at 0 (log entry 5). -/
def fetchBase (s : State) : Nat :=
  if s.pc + maxLength ≤ s.mem.size then s.pc else 0

/-- The state with an instruction's bytes placed where it will fetch them and with a cycle allowed to
start: it stands for the host's loads and its Start (70_reset_and_hazards.md R212, R214; log
entry 5). -/
def placeFetchBytes (s : State) (bytes : List Byte) : State :=
  { s with
    pc := fetchBase s
    run := .running
    en := true
    mem := s.mem.setBytes (fetchBase s) bytes }

end Sys2Proof.Machine
end

