-- ==== Sys2Proof/Machine/Step.lean ====
section
/-! DEFINITION. One step of the engine: one complete cycle (spec/30_encoding.md R91; 00_scope.md R11). -/

namespace Sys2Proof.Machine

/-- One cycle under an opcode map (30_encoding.md R91). -/
def cycle (map : OpcodeMap) (s : State) : Host.Outcome State Fault Refusal :=
  match fetch map s with
  | .ready i t => exec i t
  | .trapped e t => .next (t.raise e)

/-- One step under an opcode map: a cycle when one may start, and otherwise no change (30_encoding.md
R82, R92; log entry 4). -/
def stepWith (map : OpcodeMap) (s : State) : Host.Outcome State Fault Refusal :=
  if s.canCycle then cycle map s else .next s

/-- One step of the engine with the default opcode map (30_encoding.md R77). -/
def step (s : State) : Host.Outcome State Fault Refusal :=
  stepWith defaultOpcodeMap s

/-- `s` with a word of the opcode table placed so that the next step fetches and runs it. -/
def State.withFetchWord (s : State) (nbits w : Nat) : State :=
  placeFetchBytes s (tableBytes nbits w)

end Sys2Proof.Machine
end

