-- ==== Sys2Proof/Machine/HostInterface.lean ====
section
/-! DEFINITION. The host's side of the core: reset, load, start, stop, boot and the ports
(spec/70_reset_and_hazards.md R210 to R217). -/

namespace Sys2Proof.Machine

/-- The operations the host performs through the input ports rst, ld_we with ld_addr and ld_data, and
en (R210, R212, R214, R216). -/
inductive HostOp where
  | reset
  | load (addr : Nat) (v : Byte)
  | start
  | stop
  deriving DecidableEq, Repr

/-- What the host is told. -/
inductive HostReply where
  | done
  /-- The load's address does not exist (R213). -/
  | addressOutOfRange (addr : Nat)
  /-- A load while a cycle may run: the host has no such move (R212; log entry 11). -/
  | notPermitted
  deriving DecidableEq, Repr

/-- The reply to a host operation. -/
def hostReply (op : HostOp) (s : State) : HostReply :=
  match op with
  | .reset | .start | .stop => .done
  | .load a _ =>
    if s.canCycle then .notPermitted
    else if a < s.mem.size then .done
    else .addressOutOfRange a

/-- The state after a host operation. A load that is refused or out of range changes nothing (R212,
R213); start and stop change EN alone (R214); reset keeps MEM_SIZE (R210; log entry 18). -/
def hostState (op : HostOp) (s : State) : State :=
  match op with
  | .reset => State.resetWith s.mem.size
  | .load a v => if s.canCycle then s else s.setMem (s.mem.set a v)
  | .start => s.setEn true
  | .stop => s.setEn false

/-- The host's loads of program bytes at ascending addresses, stopped by the first that fails (R217
step 2, R213). -/
def loadBytes (s : State) (addr : Nat) : List Byte → Except HostReply State
  | [] => .ok s
  | b :: bs =>
    match hostReply (.load addr b) s with
    | .done => loadBytes (hostState (.load addr b) s) (addr + 1) bs
    | reply => .error reply

/-- The boot sequence up to the engine's start: reset, load from address 0, start; a program that does
not fit is reported and not started (R213, R217). -/
def boot (program : List Byte) (s : State) : Except HostReply State :=
  match loadBytes (hostState .reset s) 0 program with
  | .ok t => .ok (hostState .start t)
  | .error reply => .error reply

/-! ### Output ports -/

/-- The 3-bit code of CAUSE (10_state.md R32). -/
def HaltCause.code : HaltCause → BitVec 3
  | .none => 0#3
  | .hlt => 1#3
  | .invalidOpcode => 2#3
  | .reservedOpcode => 3#3
  | .addressOutOfRange => 4#3
  | .illegalRegister => 5#3

/-- The 2-bit code of FKIND (10_state.md R33). -/
def AccessKind.code : AccessKind → BitVec 2
  | .opcodeFetch => 0#2
  | .operandFetch => 1#2
  | .dataRead => 2#2
  | .dataWrite => 3#2

/-- PCMAX, the largest value the pc can reach (00_scope.md R6). -/
def pcMax (size : Nat) : Nat :=
  max size 255

/-- PCW = ceil(log2(PCMAX + 1)), the width of pc and FADDR in hardware (00_scope.md R6). -/
def pcWidth (size : Nat) : Nat :=
  Nat.log2 (pcMax size) + 1

/-- The output ports that show state (R216); pc and FADDR are numbers below 2 ^ PCW. -/
structure Ports where
  halted : Bool
  cause : BitVec 3
  faddr : Nat
  fkind : BitVec 2
  freg : Byte
  pc : Nat
  ir : Byte
  deriving DecidableEq, Repr

/-- The values of the output ports in a state (R216). -/
def State.ports (s : State) : Ports where
  halted := s.run == .halted
  cause := s.cause.code
  faddr := s.faddr
  fkind := s.fkind.code
  freg := s.freg
  pc := s.pc
  ir := s.ir

/-- The ports out_valid and out_data over one cycle from `s` to `t`: the byte it delivered, if any
(R215, R216; log entry 17). -/
def emitted (s t : State) : Option Byte :=
  t.out[s.out.length]?

/-! ### Cycles and host operations interleaved -/

/-- The only things that change state (30_encoding.md R92). -/
inductive Event where
  | cycle
  | host (op : HostOp)
  deriving DecidableEq, Repr

/-- The core and the load port's error output ld_err (R216; log entry 9). -/
structure System where
  core : State
  ldErr : Bool
  deriving DecidableEq, Repr

/-- The state a step leads to. Every step answers a next state, so the other arms keep the state only to
make this a function. -/
def next (map : OpcodeMap) (s : State) : State :=
  match stepWith map s with
  | .next t => t
  | .fault _ => s
  | .refused _ => s

/-- ld_err after a host operation: whether the last load was out of range; reset clears it (R216; log
entry 9). -/
def ldErrAfter (op : HostOp) (s : State) (old : Bool) : Bool :=
  match op, hostReply op s with
  | .reset, _ => false
  | .load _ _, .addressOutOfRange _ => true
  | .load _ _, .done => false
  | .load _ _, .notPermitted => old
  | .start, _ => old
  | .stop, _ => old

/-- One event (30_encoding.md R92). -/
def System.act (map : OpcodeMap) (y : System) : Event → System
  | .cycle => { y with core := next map y.core }
  | .host op => { core := hostState op y.core, ldErr := ldErrAfter op y.core y.ldErr }

/-- A sequence of events, in order. -/
def System.acts (map : OpcodeMap) (y : System) : List Event → System
  | [] => y
  | e :: es => (y.act map e).acts map es

end Sys2Proof.Machine
end

