-- ==== Sys2Proof/Safety.lean ====
section
/-! DEFINITION. What a run of the engine is, how it can end, and the invariant of its states, in the
terms the statements use. -/

namespace Sys2Proof.Machine

/-- The state after `n` steps under an opcode map. A run is counted in steps, because a program need
not end (spec/70_reset_and_hazards.md R225). -/
def runFor (map : OpcodeMap) : Nat → State → State
  | 0, s => s
  | n + 1, s => runFor map n (next map s)

/-- How many of the cycles in a sequence of events fall while EN = 1, when EN starts as `en`. It follows EN
by the rules of the host operations alone (spec/70_reset_and_hazards.md R210, R214), not by what the
model's `act` does. -/
def enabledCycles (en : Bool) : List Event → Nat
  | [] => 0
  | .cycle :: es => enabledCycles en es + en.toNat
  | .host .start :: es => enabledCycles true es
  | .host .stop :: es => enabledCycles false es
  | .host .reset :: es => enabledCycles false es
  | .host (.load _ _) :: es => enabledCycles en es

/-- The events are cycles, starts and stops only: no load and no reset. -/
def OnlyRunAndPause (es : List Event) : Prop :=
  ∀ e ∈ es, e = .cycle ∨ e = .host .start ∨ e = .host .stop

/-- The run has ended (R219). -/
abbrev State.Ended (s : State) : Prop :=
  s.run = .halted

/-- The run has ended cleanly: by HLT (R219; 60_exceptions.md R181). -/
abbrev State.EndedCleanly (s : State) : Prop :=
  s.run = .halted ∧ s.cause = .hlt

/-- The run has ended by a fault halt (the glossary of 00_scope.md; 60_exceptions.md R180). -/
abbrev State.FaultHalted (s : State) : Prop :=
  s.run = .halted ∧ (s.cause = .addressOutOfRange ∨ s.cause = .illegalRegister)

/-- A safe run from `s`: whenever it ends, it ends cleanly. Claims assume this of a program
(70_reset_and_hazards.md R219). -/
def RunsSafely (map : OpcodeMap) (s : State) : Prop :=
  ∀ n, (runFor map n s).Ended → (runFor map n s).EndedCleanly

/-- What holds of the state in every run: the memory's form and size (20_memory.md R50), the reach of
pc and FADDR (00_scope.md R6), the tie between RUN and CAUSE (10_state.md R31, R32) and the fault
registers' values (10_state.md R33). -/
structure State.Inv (s : State) : Prop where
  memWf : s.mem.wf
  sizePos : 1 ≤ s.mem.size
  pcReach : s.pc ≤ pcMax s.mem.size
  faddrReach : s.faddr ≤ pcMax s.mem.size
  haltedIffCause : s.run = .halted ↔ s.cause ≠ .none
  faddrOutside : s.cause = .addressOutOfRange → s.mem.size ≤ s.faddr
  faddrIdle : s.cause ≠ .addressOutOfRange → s.faddr = 0 ∧ s.fkind = .opcodeFetch
  fregOutside : s.cause = .illegalRegister → 8 ≤ s.freg.toNat
  fregIdle : s.cause ≠ .illegalRegister → s.freg = 0x00#8

/-! ### What a step leaves alone -/

/-- Every register but the listed ones is unchanged. -/
def SameRegsBut (d : List (Fin 8)) (s t : State) : Prop :=
  ∀ r, r ∉ d → t.reg r = s.reg r

/-- Every address but the listed ones reads as before. -/
def SameMemoryBut (d : List Nat) (s t : State) : Prop :=
  t.mem.size = s.mem.size ∧ ∀ a, a ∉ d → t.mem.byte? a = s.mem.byte? a

/-- IR, RUN, CAUSE, the fault registers and EN are unchanged. -/
def SameStatus (s t : State) : Prop :=
  t.ir = s.ir ∧ t.run = s.run ∧ t.cause = s.cause ∧ t.faddr = s.faddr ∧ t.fkind = s.fkind ∧
    t.freg = s.freg ∧ t.en = s.en

/-- What a halt leaves of the program's state: registers, pc, FL, IR, memory, OUT and EN are unchanged
(30_encoding.md R89; 44_machine_control.md R163, R164). -/
def SameProgramState (s t : State) : Prop :=
  SameRegsBut [] s t ∧ t.pc = s.pc ∧ t.fl = s.fl ∧ t.ir = s.ir ∧ SameMemoryBut [] s t ∧
    t.out = s.out ∧ t.en = s.en

/-- Registers but the listed ones, FL, OUT, memory, IR, RUN, CAUSE, the fault registers and EN are
unchanged: all of the state but pc and the listed registers. -/
def KeepsAllBut (d : List (Fin 8)) (s t : State) : Prop :=
  SameRegsBut d s t ∧ t.fl = s.fl ∧ t.out = s.out ∧ SameMemoryBut [] s t ∧ SameStatus s t

/-- `t` is `s` halted by IllegalRegister(b) (60_exceptions.md R185; 10_state.md R32, R33). -/
def IllegalHalt (b : Byte) (s t : State) : Prop :=
  t.run = .halted ∧ t.cause.code = 5#3 ∧ t.freg = b ∧ t.faddr = s.faddr ∧ t.fkind = s.fkind ∧
    SameProgramState s t

/-- `t` is `s` halted by AddressOutOfRange(a, kind) (60_exceptions.md R182; 10_state.md R32, R33). -/
def AddressHalt (a : Nat) (kind : AccessKind) (s t : State) : Prop :=
  t.run = .halted ∧ t.cause.code = 4#3 ∧ t.faddr = a ∧ t.fkind = kind ∧ t.freg = s.freg ∧
    SameProgramState s t

/-- `t` is `s` halted with a cause and no fault information (44_machine_control.md R163, R164). -/
def PlainHalt (code : BitVec 3) (s t : State) : Prop :=
  t.run = .halted ∧ t.cause.code = code ∧ t.faddr = s.faddr ∧ t.fkind = s.fkind ∧
    t.freg = s.freg ∧ SameProgramState s t

/-- A cycle of `u` that fetches address `a` gets the byte `b` there: as its opcode, or as operand byte `j`
of the implemented instruction it executes (20_memory.md R64; 30_encoding.md R85, R87). -/
def FetchSees (map : OpcodeMap) (a : Nat) (b : Byte) (u : State) : Prop :=
  (u.pc = a → ∃ v, stepWith map u = .next v ∧ v.ir = b) ∧
  ∀ (m : Mnemonic) (j : Nat), map.Admissible → m.isReserved = false →
    u.mem.byte? u.pc = some (map m) → 1 ≤ j → j ≤ m.arity → u.pc + j = a →
    u.pc + m.arity < u.mem.size →
    ∃ i, i.mnemonic = some m ∧ (encode map i)[j]? = some b ∧
      stepWith map u = exec i (u.setIr (map m))

/-! ### The shape of an instruction's rule

Each rule of an instruction says four things: its encoding under the default map, its trap when an
operand byte would lie past the end of memory, its trap on a register byte of 8 or more, and its effect. -/

/-- The trap of operand fetch for an opcode with `k` operand bytes (30_encoding.md R87): the opcode is
in IR and nothing else has changed. -/
def OperandFetchTraps (opcode : Byte) (k : Nat) : Prop :=
  ∀ (s : State) (j : Nat), s.canCycle = true → s.mem.byte? s.pc = some opcode →
    1 ≤ j → j ≤ k → s.pc + j = s.mem.size →
    ∃ t, step s = .next t ∧ AddressHalt (s.pc + j) .operandFetch (s.setIr opcode) t

/-- The rule of an instruction with one register operand: `done i s t` says what its execution on Ri
makes of `s`. -/
def OneRegisterRule (opcode : Byte) (build : Byte → Instr)
    (done : Fin 8 → State → State → Prop) : Prop :=
  (∀ r, encode defaultOpcodeMap (build r) = [opcode, r]) ∧
  OperandFetchTraps opcode 1 ∧
  (∀ r s, 8 ≤ r.toNat → ∃ t, exec (build r) s = .next t ∧ IllegalHalt r s t) ∧
  ∀ i s, ∃ t, exec (build (regByte i)) s = .next t ∧ done i s t

/-- The rule of an instruction with two register operands, the first checked first. -/
def TwoRegisterRule (opcode : Byte) (build : Byte → Byte → Instr)
    (done : Fin 8 → Fin 8 → State → State → Prop) : Prop :=
  (∀ a b, encode defaultOpcodeMap (build a b) = [opcode, a, b]) ∧
  OperandFetchTraps opcode 2 ∧
  (∀ a b s, 8 ≤ a.toNat → ∃ t, exec (build a b) s = .next t ∧ IllegalHalt a s t) ∧
  (∀ a b s, a.toNat < 8 → 8 ≤ b.toNat →
    ∃ t, exec (build a b) s = .next t ∧ IllegalHalt b s t) ∧
  ∀ i j s, ∃ t, exec (build (regByte i) (regByte j)) s = .next t ∧ done i j s t

/-- The registers that operand bytes name. -/
def namedRegs : List Byte → List (Fin 8)
  | [] => []
  | b :: bs => if h : b.toNat < 8 then ⟨b.toNat, h⟩ :: namedRegs bs else namedRegs bs

/-- The registers an instruction reads (10_state.md R23): LDS reads the register its index names too. -/
def readRegs (s : State) : Instr → List (Fin 8)
  | .nop | .hlt | .ldi _ _ => []
  | .ret | .irt | .pra | .cal | .int | .str | .invalid _ => []
  | .inc r | .dec r | .jmp r | .jeq r | .jne r | .prn r => namedRegs [r]
  | .add a b | .sub a b | .mul a b | .div a b | .cmp a b => namedRegs [a, b]
  | .lds _ b => namedRegs [b] ++ namedRegs ((namedRegs [b]).map s.reg)
  | .psh r => Config.spIndex :: namedRegs [r]
  | .pop _ => [Config.spIndex]

/-- The registers an instruction writes when it completes (10_state.md R23). -/
def writtenRegs (s : State) : Instr → List (Fin 8)
  | .nop | .hlt | .cmp _ _ | .jmp _ | .jeq _ | .jne _ | .prn _ => []
  | .ret | .irt | .pra | .cal | .int | .str | .invalid _ => []
  | .ldi r _ | .inc r | .dec r => namedRegs [r]
  | .lds a _ | .add a _ | .sub a _ | .mul a _ => namedRegs [a]
  | .div a b => if (namedRegs [b]).map s.reg = [0x00#8] then [] else namedRegs [a]
  | .psh _ => [Config.spIndex]
  | .pop r => Config.spIndex :: namedRegs [r]

end Sys2Proof.Machine
end

