-- ==== Sys2Proof/Certificates/Slice0/Obligations.lean ====
section
/-! DEFINITION. The statements for the provers. Each docstring names the rule of spec/ it formalises. -/

open Sys2Proof Sys2Proof.Machine

/-! ### Encoding and dispatch -/

/-- 30_encoding.md R77: the byte and the arity of each row of the default map. -/
def Obligations.DefaultMapAssignsTabledBytes : Prop :=
  defaultOpcodeMap .nop = 0x00#8 ∧ Mnemonic.arity .nop = 0 ∧
  defaultOpcodeMap .hlt = 0x01#8 ∧ Mnemonic.arity .hlt = 0 ∧
  defaultOpcodeMap .ret = 0x09#8 ∧ defaultOpcodeMap .irt = 0x0B#8 ∧
  defaultOpcodeMap .pra = 0x42#8 ∧ defaultOpcodeMap .cal = 0x48#8 ∧
  defaultOpcodeMap .int = 0x4A#8 ∧ defaultOpcodeMap .str = 0x9A#8 ∧
  defaultOpcodeMap .prn = 0x43#8 ∧ Mnemonic.arity .prn = 1 ∧
  defaultOpcodeMap .pop = 0x4C#8 ∧ Mnemonic.arity .pop = 1 ∧
  defaultOpcodeMap .psh = 0x4D#8 ∧ Mnemonic.arity .psh = 1 ∧
  defaultOpcodeMap .jmp = 0x50#8 ∧ Mnemonic.arity .jmp = 1 ∧
  defaultOpcodeMap .jeq = 0x51#8 ∧ Mnemonic.arity .jeq = 1 ∧
  defaultOpcodeMap .jne = 0x52#8 ∧ Mnemonic.arity .jne = 1 ∧
  defaultOpcodeMap .inc = 0x78#8 ∧ Mnemonic.arity .inc = 1 ∧
  defaultOpcodeMap .dec = 0x79#8 ∧ Mnemonic.arity .dec = 1 ∧
  defaultOpcodeMap .lds = 0x98#8 ∧ Mnemonic.arity .lds = 2 ∧
  defaultOpcodeMap .ldi = 0x99#8 ∧ Mnemonic.arity .ldi = 2 ∧
  defaultOpcodeMap .cmp = 0xA0#8 ∧ Mnemonic.arity .cmp = 2 ∧
  defaultOpcodeMap .add = 0xA8#8 ∧ Mnemonic.arity .add = 2 ∧
  defaultOpcodeMap .sub = 0xA9#8 ∧ Mnemonic.arity .sub = 2 ∧
  defaultOpcodeMap .mul = 0xAA#8 ∧ Mnemonic.arity .mul = 2 ∧
  defaultOpcodeMap .div = 0xAB#8 ∧ Mnemonic.arity .div = 2

/-- 30_encoding.md R72, R77: words written out from the encodings decode to their instructions. -/
def Obligations.WrittenWordsDecode : Prop :=
  decode defaultOpcodeMap [0b00000000#8] = .ok .nop ∧
  decode defaultOpcodeMap [0b10011001#8, 0b00000000#8, 0b00001000#8] = .ok (.ldi 0x00#8 0x08#8) ∧
  decode defaultOpcodeMap [0b10101000#8, 0b00000000#8, 0b00000001#8] = .ok (.add 0x00#8 0x01#8) ∧
  decode defaultOpcodeMap [0b01001101#8, 0b00000111#8] = .ok (.psh 0x07#8) ∧
  decode defaultOpcodeMap [0b01001000#8, 0b00000000#8] = .ok .cal ∧
  decode defaultOpcodeMap [0b11111111#8] = .ok (.invalid 0xFF#8)

/-- 30_encoding.md R70, R72, R76: under every admissible map, decoding the encoding of an instruction,
whatever bytes follow it, gives the instruction with every operand bit. -/
def Obligations.DecodingAnEncodingGivesItBack : Prop :=
  ∀ (map : OpcodeMap) (i : Instr) (rest : List Byte), map.Admissible →
    WellFormed.encodable map i = true → decode map (encode map i ++ rest) = .ok i

/-- 30_encoding.md R72, R78: a byte string that decodes begins with the encoding of what it decodes to,
so each string has one meaning and no operand byte is invented. -/
def Obligations.DecodedBytesAreTheEncoding : Prop :=
  ∀ (map : OpcodeMap) (bytes : List Byte) (i : Instr), decode map bytes = .ok i →
    WellFormed.encodable map i = true ∧ ∃ rest, bytes = encode map i ++ rest

/-- 30_encoding.md R78: each byte is the opcode of exactly one mnemonic or is in the invalid class, and
under the default map 233 bytes, all of 0xC0..0xFF among them, are invalid. -/
def Obligations.OpcodeBytesFallIntoThreeClasses : Prop :=
  (∀ (map : OpcodeMap) (b : Byte), map.Admissible →
    (∀ m, classify map b = some m ↔ map m = b) ∧
    (classify map b = none ↔ ∀ m, map m ≠ b)) ∧
  ((List.range 256).filter fun n =>
    (classify defaultOpcodeMap (BitVec.ofNat 8 n)).isNone).length = 233 ∧
  ∀ b : Byte, 0xC0 ≤ b.toNat → classify defaultOpcodeMap b = none

/-- 30_encoding.md R71: under every admissible map a byte 0b11xxxxxx is an invalid opcode. That an
admissible map keeps its reserved opcodes out of that range is log entry 6. -/
def Obligations.TopBits11AreInvalid : Prop :=
  ∀ (map : OpcodeMap) (b : Byte) (rest : List Byte), map.Admissible →
    b.extractLsb 7 6 = 0b11#2 → decode map (b :: rest) = .ok (.invalid b)

/-- 30_encoding.md R79, R71: the length of an implemented instruction is one and bits [7:6] of its
opcode. -/
def Obligations.LengthIsOnePlusTopBits : Prop :=
  ∀ (map : OpcodeMap) (op : Byte) (rest : List Byte) (i : Instr) (m : Mnemonic), map.Admissible →
    decode map (op :: rest) = .ok i → i.mnemonic = some m → m.isReserved = false →
    (encode map i).length = 1 + (op.extractLsb 7 6).toNat

/-- 30_encoding.md R83: which rule executes depends on the byte in IR and the map alone. -/
def Obligations.DispatchDependsOnOpcodeAlone : Prop :=
  ∀ (map : OpcodeMap) (s u s' u' : State) (i j : Instr), fetch map s = .ready i s' →
    fetch map u = .ready j u' → s'.ir = u'.ir → i.mnemonic = j.mnemonic

/-! ### Memory accesses -/

/-- 20_memory.md R51, R52: an access inside the array reads or writes its one cell; one at or beyond
MEM_SIZE raises AddressOutOfRange with the address and the kind, and no cell changes. -/
def Obligations.MemoryAccessesAreBounded : Prop :=
  ∀ (kind : AccessKind) (a : Nat) (v : Byte) (s : State),
    (a < s.mem.size →
      (∃ b, s.mem.byte? a = some b ∧ memRead kind a s = .ok b) ∧
      ∃ t, memWrite a v s = .ok t ∧ t = s.setMem t.mem ∧ t.mem.byte? a = some v ∧
        SameMemoryBut [a] s t) ∧
    (s.mem.size ≤ a →
      memRead kind a s = .error (.addressOutOfRange a kind) ∧
      AddressHalt a kind s (s.raise (.addressOutOfRange a kind)) ∧
      memWrite a v s = .error (.addressOutOfRange a .dataWrite) ∧
      AddressHalt a .dataWrite s (s.raise (.addressOutOfRange a .dataWrite)))

/-! ### The cycle -/

/-- 30_encoding.md R91: when the bytes from pc on decode to an instruction, a step that may run is that
instruction's execution, in the state whose IR holds its opcode, under every map and so for `step`. -/
def Obligations.StepRunsDecodedInstruction : Prop :=
  (∀ (map : OpcodeMap) (s : State) (i : Instr), s.canCycle = true →
    decode map (s.mem.bytesFrom s.pc maxLength) = .ok i →
    ∃ op, s.mem.byte? s.pc = some op ∧ stepWith map s = exec i (s.setIr op)) ∧
  ∀ s, step s = stepWith defaultOpcodeMap s

/-- 30_encoding.md R82, R92: with EN = 0 or RUN = HALTED no cycle starts; the model's step then answers
the same state (log entry 4). -/
def Obligations.StepWaitsWhenNoCycleMayStart : Prop :=
  ∀ (map : OpcodeMap) (s : State), (s.en = false ∨ s.run = .halted) → stepWith map s = .next s

/-- 30_encoding.md R85: an opcode fetch at or beyond MEM_SIZE traps and leaves IR; otherwise the step
leaves the byte at pc in IR. -/
def Obligations.OpcodeFetchWritesIrOrTraps : Prop :=
  ∀ (map : OpcodeMap) (s : State), s.canCycle = true →
    (s.mem.size ≤ s.pc →
      ∃ t, stepWith map s = .next t ∧ AddressHalt s.pc .opcodeFetch s t) ∧
    ∀ op, s.mem.byte? s.pc = some op → ∃ t, stepWith map s = .next t ∧ t.ir = op

/-- 30_encoding.md R87: the operand bytes of an implemented opcode are read in order before the rule
runs; the first one at or beyond MEM_SIZE traps, and otherwise the opcode's instruction made of the bytes
at a0 .. a0 + k executes with nothing but IR changed. -/
def Obligations.OperandFetchReadsAllOrTraps : Prop :=
  ∀ (map : OpcodeMap) (s : State) (m : Mnemonic), map.Admissible → m.isReserved = false →
    s.canCycle = true → s.mem.byte? s.pc = some (map m) →
    (∀ j, 1 ≤ j → j ≤ m.arity → s.pc + j = s.mem.size →
      ∃ t, stepWith map s = .next t ∧
        AddressHalt (s.pc + j) .operandFetch (s.setIr (map m)) t) ∧
    (s.pc + m.arity < s.mem.size →
      ∃ i, i.mnemonic = some m ∧ encode map i = s.mem.bytesFrom s.pc (m.arity + 1) ∧
        stepWith map s = exec i (s.setIr (map m)))

/-- 44_machine_control.md R164: a reserved opcode halts with CAUSE 3 and nothing else, as an instruction
and as a step, even where an operand byte would lie past the end of memory. -/
def Obligations.ReservedOpcodesHalt : Prop :=
  encode defaultOpcodeMap .cal = [0b01001000#8] ∧ encode defaultOpcodeMap .ret = [0b00001001#8] ∧
  encode defaultOpcodeMap .int = [0b01001010#8] ∧ encode defaultOpcodeMap .irt = [0b00001011#8] ∧
  encode defaultOpcodeMap .str = [0b10011010#8] ∧ encode defaultOpcodeMap .pra = [0b01000010#8] ∧
  (∀ (i : Instr) (s : State), i ∈ [Instr.cal, .ret, .int, .irt, .str, .pra] →
    ∃ t, exec i s = .next t ∧ PlainHalt 3#3 s t) ∧
  ∀ (map : OpcodeMap) (m : Mnemonic) (s : State), map.Admissible → m.isReserved = true →
    s.canCycle = true → s.mem.byte? s.pc = some (map m) →
    ∃ t, stepWith map s = .next t ∧ PlainHalt 3#3 (s.setIr (map m)) t

/-- 44_machine_control.md R163: an invalid opcode halts with CAUSE 2 and nothing else; IR holds it. -/
def Obligations.InvalidOpcodesHalt : Prop :=
  (∀ (b : Byte) (s : State), ∃ t, exec (.invalid b) s = .next t ∧ PlainHalt 2#3 s t) ∧
  ∀ (map : OpcodeMap) (b : Byte) (s : State), (∀ m, map m ≠ b) →
    s.canCycle = true → s.mem.byte? s.pc = some b →
    ∃ t, stepWith map s = .next t ∧ PlainHalt 2#3 (s.setIr b) t

/-- 30_encoding.md R89: a cycle that raises a fault commits nothing but IR and the halt, and the fault
registers say why. IR is written exactly when the opcode was fetched. -/
def Obligations.FaultingCycleCommitsNothing : Prop :=
  ∀ (map : OpcodeMap) (s t : State), s.canCycle = true → stepWith map s = .next t →
    t.FaultHalted →
    ∃ ir, ir = (s.mem.byte? s.pc).getD s.ir ∧
      ((∃ a kind, s.mem.size ≤ a ∧ AddressHalt a kind (s.setIr ir) t) ∨
       (∃ b : Byte, 8 ≤ b.toNat ∧ IllegalHalt b (s.setIr ir) t))

/-- 60_exceptions.md R188: the checks of one instruction run in the stated order and only the first that
fails is reported. Each clause assumes that the checks before it passed and nothing of those after it.
The clauses for LDS, PSH and POP start from register operands that exist. -/
def Obligations.ChecksRunInFixedOrder : Prop :=
  ∀ (map : OpcodeMap) (s : State), map.Admissible → s.canCycle = true →
    (s.mem.size ≤ s.pc → ∃ t, stepWith map s = .next t ∧ AddressHalt s.pc .opcodeFetch s t) ∧
    (∀ m, m.isReserved = true → s.mem.byte? s.pc = some (map m) →
      ∃ t, stepWith map s = .next t ∧ PlainHalt 3#3 (s.setIr (map m)) t) ∧
    (∀ b, (∀ m, map m ≠ b) → s.mem.byte? s.pc = some b →
      ∃ t, stepWith map s = .next t ∧ PlainHalt 2#3 (s.setIr b) t) ∧
    (∀ m j, m.isReserved = false → s.mem.byte? s.pc = some (map m) → 1 ≤ j → j ≤ m.arity →
      s.pc + j = s.mem.size →
      ∃ t, stepWith map s = .next t ∧
        AddressHalt (s.pc + j) .operandFetch (s.setIr (map m)) t) ∧
    ∀ (i : Instr) (op : Byte), s.mem.byte? s.pc = some op →
      decode map (s.mem.bytesFrom s.pc maxLength) = .ok i →
      (∀ b, i.regOperands.find? (fun b => decide (8 ≤ b.toNat)) = some b →
        ∃ t, stepWith map s = .next t ∧ IllegalHalt b (s.setIr op) t) ∧
      (∀ x y, i = .lds (regByte x) (regByte y) → 8 ≤ (s.reg y).toNat →
        ∃ t, stepWith map s = .next t ∧ IllegalHalt (s.reg y) (s.setIr op) t) ∧
      (∀ x, i = .psh (regByte x) → s.mem.size ≤ (pushSp s).toNat →
        ∃ t, stepWith map s = .next t ∧
          AddressHalt (pushSp s).toNat .dataWrite (s.setIr op) t) ∧
      (∀ x, i = .pop (regByte x) → s.mem.size ≤ s.sp.toNat →
        ∃ t, stepWith map s = .next t ∧ AddressHalt s.sp.toNat .dataRead (s.setIr op) t) ∧
      (∀ x y, i = .div (regByte x) (regByte y) →
        ∃ t, stepWith map s = .next t ∧ SameStatus (s.setIr op) t)

/-- 30_encoding.md R74: the whole operand byte is compared with 8, a legal byte names the register of its
value, and every instruction checks all its register operands, first to last, whatever it would do
with them. -/
def Obligations.IllegalRegisterOperandsHalt : Prop :=
  (∀ (b : Byte) (i : Fin 8), regIndex b = .ok i ↔ b.toNat = i.val) ∧
  (∀ b : Byte, 8 ≤ b.toNat → regIndex b = .error (.illegalRegister b)) ∧
  ∀ (i : Instr) (s : State) (b : Byte),
    i.regOperands.find? (fun b => decide (8 ≤ b.toNat)) = some b →
    ∃ t, exec i s = .next t ∧ IllegalHalt b s t

/-- 30_encoding.md R90, R91, 60_exceptions.md R190: no behaviour is left without a state; the model's step
answers a next state in every state (log entry 3). -/
def Obligations.EveryStepAnswersANextState : Prop :=
  ∀ (map : OpcodeMap) (s : State), ∃ t, stepWith map s = .next t

/-- 60_exceptions.md R191, 10_state.md R31: whatever cycles, loads, starts and stops follow, a halted
engine stays halted with its cause, and only a reset leaves HALTED. -/
def Obligations.HaltedIsLeftOnlyByReset : Prop :=
  (∀ (map : OpcodeMap) (y : System) (es : List Event), y.core.run = .halted →
    .host .reset ∉ es →
    (y.acts map es).core.run = .halted ∧ (y.acts map es).core.cause = y.core.cause ∧
      (y.acts map es).core.regs = y.core.regs ∧ (y.acts map es).core.pc = y.core.pc ∧
      (y.acts map es).core.ir = y.core.ir ∧ (y.acts map es).core.fl = y.core.fl ∧
      (y.acts map es).core.out = y.core.out) ∧
  ∀ (map : OpcodeMap) (y : System), (y.act map (.host .reset)).core.run = .running

/-- 10_state.md R32: CAUSE is written once, at the moment RUN becomes HALTED, with one of its named codes. -/
def Obligations.CauseIsWrittenAtTheHalt : Prop :=
  ∀ (map : OpcodeMap) (s t : State), stepWith map s = .next t →
    (t.run = s.run ∧ t.cause = s.cause) ∨
    (s.run = .running ∧ t.run = .halted ∧ t.cause.code ≠ 0#3 ∧ t.cause.code.toNat ≤ 5)

/-! ### Invariants -/

/-- 10_state.md R38, R39: the invariant holds after reset, for every MEM_SIZE of at least 1. -/
def Obligations.ResetMeetsInvariant : Prop :=
  State.reset.Inv ∧ ∀ size, 1 ≤ size → (State.resetWith size).Inv

/-- From every state that meets the invariant, a step under any map gives a state that meets it: the
memory keeps its form, pc and FADDR stay within PCMAX (00_scope.md R6), RUN and CAUSE agree
(10_state.md R31, R32) and the fault registers hold what R33 says. -/
def Obligations.EveryStepKeepsInvariant : Prop :=
  ∀ (map : OpcodeMap) (s t : State), s.Inv → stepWith map s = .next t → t.Inv

/-- 70_reset_and_hazards.md R210 to R214: the host's operations keep the invariant. -/
def Obligations.EveryHostOperationKeepsInvariant : Prop :=
  ∀ (op : HostOp) (s : State), s.Inv → (hostState op s).Inv

/-- 00_scope.md R6: in every state that meets the invariant, pc and FADDR fit in PCW bits; PCW is 9 at
the default MEM_SIZE and 8 at any MEM_SIZE of at most 255. -/
def Obligations.PcAndFaddrFitTheirWidth : Prop :=
  (∀ s : State, s.Inv → s.pc < 2 ^ pcWidth s.mem.size ∧ s.faddr < 2 ^ pcWidth s.mem.size) ∧
  pcWidth Config.memSize = 9 ∧ ∀ size, size ≤ 255 → pcWidth size = 8

/-- 10_state.md R38, 70_reset_and_hazards.md R210: the reset value of every piece of state, at the default
MEM_SIZE and after a host reset at any MEM_SIZE. -/
def Obligations.ResetGivesStatedValues : Prop :=
  State.reset.mem.size = 256 ∧
  ∀ t : State, (t = State.reset ∨ ∃ s, t = hostState .reset s) →
    (∀ r : Fin 8, t.reg r = if r = 7 then 0xF8#8 else 0x00#8) ∧ t.pc = 0 ∧ t.ir = 0x00#8 ∧
    t.fl = false ∧ t.run = .running ∧ t.cause = .none ∧ t.cause.code = 0#3 ∧ t.faddr = 0 ∧
    t.fkind.code = 0#2 ∧ t.freg = 0x00#8 ∧ t.out = [] ∧ t.en = false ∧
    ∀ a, a < t.mem.size → t.mem.byte? a = some 0x00#8

/-- 20_memory.md R50, 10_state.md R35: no step changes the number of cells or EN. -/
def Obligations.StepsKeepMemorySizeAndEnable : Prop :=
  ∀ (map : OpcodeMap) (s t : State), stepWith map s = .next t →
    t.mem.size = s.mem.size ∧ t.en = s.en

/-! ### The instructions -/

/-- 40_load.md R100. -/
def Obligations.LdiWritesImmediate : Prop :=
  (∀ r imm, encode defaultOpcodeMap (.ldi r imm) = [0b10011001#8, r, imm]) ∧
  OperandFetchTraps 0b10011001#8 2 ∧
  (∀ r imm s, 8 ≤ r.toNat → ∃ t, exec (.ldi r imm) s = .next t ∧ IllegalHalt r s t) ∧
  ∀ i imm s, ∃ t, exec (.ldi (regByte i) imm) s = .next t ∧
    t.reg i = imm ∧ t.pc = s.pc + 3 ∧ KeepsAllBut [i] s t

/-- 40_load.md R101: the index is read before the write; an index value of 8 or more traps. -/
def Obligations.LdsCopiesTheIndexedRegister : Prop :=
  TwoRegisterRule 0b10011000#8 .lds fun i j s t =>
    (8 ≤ (s.reg j).toNat → IllegalHalt (s.reg j) s t) ∧
    ∀ k : Fin 8, (s.reg j).toNat = k.val →
      t.reg i = s.reg k ∧ t.pc = s.pc + 3 ∧ KeepsAllBut [i] s t

/-- 41_alu.md R111. -/
def Obligations.AddWritesSumModulo256 : Prop :=
  TwoRegisterRule 0b10101000#8 .add fun i j s t =>
    (t.reg i).toNat = ((s.reg i).toNat + (s.reg j).toNat) % 256 ∧ t.pc = s.pc + 3 ∧
    KeepsAllBut [i] s t

/-- 41_alu.md R112. -/
def Obligations.SubWritesDifferenceModulo256 : Prop :=
  TwoRegisterRule 0b10101001#8 .sub fun i j s t =>
    ((t.reg i).toNat : Int) = (((s.reg i).toNat : Int) - (s.reg j).toNat) % 256 ∧
    t.pc = s.pc + 3 ∧ KeepsAllBut [i] s t

/-- 41_alu.md R113. -/
def Obligations.MulWritesProductModulo256 : Prop :=
  TwoRegisterRule 0b10101010#8 .mul fun i j s t =>
    (t.reg i).toNat = ((s.reg i).toNat * (s.reg j).toNat) % 256 ∧ t.pc = s.pc + 3 ∧
    KeepsAllBut [i] s t

/-- 41_alu.md R114, 60_exceptions.md R183: the floor quotient; a zero divisor writes nothing and raises
nothing. -/
def Obligations.DivWritesQuotientOrNothing : Prop :=
  TwoRegisterRule 0b10101011#8 .div fun i j s t =>
    ((s.reg j).toNat ≠ 0 → (t.reg i).toNat = (s.reg i).toNat / (s.reg j).toNat) ∧
    ((s.reg j).toNat = 0 → t.reg i = s.reg i) ∧ t.pc = s.pc + 3 ∧ KeepsAllBut [i] s t

/-- 41_alu.md R115. -/
def Obligations.IncAddsOneModulo256 : Prop :=
  OneRegisterRule 0b01111000#8 .inc fun i s t =>
    (t.reg i).toNat = ((s.reg i).toNat + 1) % 256 ∧ t.pc = s.pc + 2 ∧ KeepsAllBut [i] s t

/-- 41_alu.md R116. -/
def Obligations.DecSubtractsOneModulo256 : Prop :=
  OneRegisterRule 0b01111001#8 .dec fun i s t =>
    ((t.reg i).toNat : Int) = (((s.reg i).toNat : Int) - 1) % 256 ∧ t.pc = s.pc + 2 ∧
    KeepsAllBut [i] s t

/-- 41_alu.md R117: CMP writes FL both ways and no register. -/
def Obligations.CmpWritesEqualFlag : Prop :=
  TwoRegisterRule 0b10100000#8 .cmp fun i j s t =>
    (t.fl = true ↔ (s.reg i).toNat = (s.reg j).toNat) ∧ t.pc = s.pc + 3 ∧
    SameRegsBut [] s t ∧ t.out = s.out ∧ SameMemoryBut [] s t ∧ SameStatus s t

/-- 41_alu.md R110, R118: the ALU's results, reduced modulo 256, and its "no write" output. -/
def Obligations.AluComputesModulo256 : Prop :=
  ∀ a b : Byte,
    (∃ v, (aluApply .add a b).result = some v ∧ v.toNat = (a.toNat + b.toNat) % 256) ∧
    (∃ v, (aluApply .sub a b).result = some v ∧
      (v.toNat : Int) = ((a.toNat : Int) - b.toNat) % 256) ∧
    (∃ v, (aluApply .mul a b).result = some v ∧ v.toNat = (a.toNat * b.toNat) % 256) ∧
    (∃ v, (aluApply .inc a b).result = some v ∧ v.toNat = (a.toNat + 1) % 256) ∧
    (∃ v, (aluApply .dec a b).result = some v ∧ (v.toNat : Int) = ((a.toNat : Int) - 1) % 256) ∧
    (b.toNat ≠ 0 →
      ∃ v, (aluApply .div a b).result = some v ∧ v.toNat = a.toNat / b.toNat) ∧
    (b.toNat = 0 → (aluApply .div a b).result = none) ∧
    (aluApply .cmp a b).result = none ∧
    ((aluApply .cmp a b).equal = true ↔ a.toNat = b.toNat)

/-- 42_branch.md R140: the target is taken as it stands, at or beyond MEM_SIZE too. -/
def Obligations.JmpGoesToTheRegister : Prop :=
  OneRegisterRule 0b01010000#8 .jmp fun i s t =>
    t.pc = (s.reg i).toNat ∧ KeepsAllBut [] s t

/-- 42_branch.md R141. -/
def Obligations.JeqJumpsWhenEqual : Prop :=
  OneRegisterRule 0b01010001#8 .jeq fun i s t =>
    (s.fl = true → t.pc = (s.reg i).toNat) ∧ (s.fl = false → t.pc = s.pc + 2) ∧
    KeepsAllBut [] s t

/-- 42_branch.md R142. -/
def Obligations.JneJumpsWhenNotEqual : Prop :=
  OneRegisterRule 0b01010010#8 .jne fun i s t =>
    (s.fl = false → t.pc = (s.reg i).toNat) ∧ (s.fl = true → t.pc = s.pc + 2) ∧
    KeepsAllBut [] s t

/-- 43_stack.md R151: the stored byte lies at the decremented SP, R7 stores its decremented value, and an
address at or beyond MEM_SIZE traps with nothing committed. -/
def Obligations.PshStoresBelowTheStackPointer : Prop :=
  (∀ s : State, ((pushSp s).toNat : Int) = (((s.reg 7).toNat : Int) - 1) % 256) ∧
  OneRegisterRule 0b01001101#8 .psh fun i s t =>
    (s.mem.size ≤ (pushSp s).toNat → AddressHalt (pushSp s).toNat .dataWrite s t) ∧
    ((pushSp s).toNat < s.mem.size →
      t.mem.byte? (pushSp s).toNat = some (if i = 7 then pushSp s else s.reg i) ∧
      SameMemoryBut [(pushSp s).toNat] s t ∧ t.reg 7 = pushSp s ∧ SameRegsBut [7] s t ∧
      t.pc = s.pc + 2 ∧ t.fl = s.fl ∧ t.out = s.out ∧ SameStatus s t)

/-- 43_stack.md R152: the popped byte goes to the register, then R7 as it stands is incremented. -/
def Obligations.PopLoadsFromTheStackPointer : Prop :=
  OneRegisterRule 0b01001100#8 .pop fun i s t =>
    (s.mem.size ≤ (s.reg 7).toNat → AddressHalt (s.reg 7).toNat .dataRead s t) ∧
    ∀ v, s.mem.byte? (s.reg 7).toNat = some v →
      (i = 7 → (t.reg 7).toNat = (v.toNat + 1) % 256) ∧
      (i ≠ 7 → t.reg i = v ∧ (t.reg 7).toNat = ((s.reg 7).toNat + 1) % 256) ∧
      t.pc = s.pc + 2 ∧ KeepsAllBut [i, 7] s t

/-- 44_machine_control.md R160. -/
def Obligations.NopOnlyAdvances : Prop :=
  encode defaultOpcodeMap .nop = [0b00000000#8] ∧
  ∀ s : State, ∃ t, exec .nop s = .next t ∧ t.pc = s.pc + 1 ∧ KeepsAllBut [] s t

/-- 44_machine_control.md R161: PRN appends the register's byte to OUT, and delivers that byte. -/
def Obligations.PrnEmitsTheRegister : Prop :=
  OneRegisterRule 0b01000011#8 .prn fun i s t =>
    t.out = s.out ++ [s.reg i] ∧ emitted s t = some (s.reg i) ∧ t.pc = s.pc + 2 ∧
    SameRegsBut [] s t ∧ t.fl = s.fl ∧ SameMemoryBut [] s t ∧ SameStatus s t

/-- 44_machine_control.md R162: HLT advances pc, then halts with CAUSE 1. -/
def Obligations.HltAdvancesAndHalts : Prop :=
  encode defaultOpcodeMap .hlt = [0b00000001#8] ∧
  ∀ s : State, ∃ t, exec .hlt s = .next t ∧ t.pc = s.pc + 1 ∧ t.run = .halted ∧
    t.cause.code = 1#3 ∧ t.faddr = s.faddr ∧ t.fkind = s.fkind ∧ t.freg = s.freg ∧
    t.ir = s.ir ∧ t.en = s.en ∧ SameRegsBut [] s t ∧ t.fl = s.fl ∧ t.out = s.out ∧
    SameMemoryBut [] s t

/-! ### Rules over all instructions -/

/-- 10_state.md R29, R30: a step that changes FL executes CMP. -/
def Obligations.OnlyCmpChangesFlag : Prop :=
  ∀ (map : OpcodeMap) (s t : State), stepWith map s = .next t → t.fl ≠ s.fl →
    s.mem.byte? s.pc = some (map .cmp)

/-- 10_state.md R34: a step leaves OUT as it is, or it executes PRN and appends the one byte of a
register. -/
def Obligations.OnlyPrnAppendsToOutput : Prop :=
  ∀ (map : OpcodeMap) (s t : State), stepWith map s = .next t →
    t.out = s.out ∨
    (s.mem.byte? s.pc = some (map .prn) ∧ ∃ r, t.out = s.out ++ [s.reg r])

/-- 20_memory.md R53: a step that changes a byte of memory executes PSH, and the byte is the one below the
stack pointer. -/
def Obligations.OnlyPshChangesMemory : Prop :=
  ∀ (map : OpcodeMap) (s t : State) (a : Nat), stepWith map s = .next t →
    t.mem.byte? a ≠ s.mem.byte? a →
    s.mem.byte? s.pc = some (map .psh) ∧ a = (pushSp s).toNat

/-- 10_state.md R23: an instruction changes no register but those its row of the table says it writes, and
registers that its row does not say it reads make no difference to what it does: to the registers it
writes when it completes, or to anything else of the state. -/
def Obligations.RegistersReadAndWrittenAsTabled : Prop :=
  (∀ (i : Instr) (s t : State), exec i s = .next t → SameRegsBut (writtenRegs s i) s t) ∧
  ∀ (i : Instr) (s u t v : State), u = { s with regs := u.regs } →
    (∀ r ∈ readRegs s i, u.reg r = s.reg r) → exec i s = .next t → exec i u = .next v →
    v = { t with regs := v.regs } ∧ writtenRegs u i = writtenRegs s i ∧
      (s.run = .running → t.run = .running → ∀ r ∈ writtenRegs s i, v.reg r = t.reg r)

/-- 10_state.md R25: the pc an instruction commits. One that stops the engine other than by HLT leaves pc;
jumps commit their target; every other one commits a0 + 1 + k. -/
def Obligations.HandlersCommitThePc : Prop :=
  ∀ (i : Instr) (s t : State), s.run = .running → exec i s = .next t →
    (t.run = .halted → t.cause ≠ .hlt → t.pc = s.pc) ∧
    ((t.run = .halted → t.cause = .hlt) →
      (∀ r, i = .jmp (regByte r) → t.pc = (s.reg r).toNat) ∧
      (∀ r, i = .jeq (regByte r) → t.pc = if s.fl then (s.reg r).toNat else s.pc + 2) ∧
      (∀ r, i = .jne (regByte r) → t.pc = if s.fl then s.pc + 2 else (s.reg r).toNat) ∧
      ((∀ r, i ≠ .jmp r ∧ i ≠ .jeq r ∧ i ≠ .jne r) → t.pc = s.pc + i.length))

/-- 20_memory.md R54: with MEM_SIZE at least 256, no PSH or POP on a register that exists halts. -/
def Obligations.StackNeverTrapsAt256Cells : Prop :=
  ∀ (i : Fin 8) (s : State), 256 ≤ s.mem.size →
    (∃ t, exec (.psh (regByte i)) s = .next t ∧ SameStatus s t) ∧
    (∃ t, exec (.pop (regByte i)) s = .next t ∧ SameStatus s t)

/-- 43_stack.md R153: PSH Rr directly followed by POP Rr restores every register, R7 too, and the cell
below the old SP keeps the pushed value. -/
def Obligations.PshThenPopRestoresRegisters : Prop :=
  ∀ (i : Fin 8) (s : State), (pushSp s).toNat < s.mem.size →
    ∃ t u, exec (.psh (regByte i)) s = .next t ∧ exec (.pop (regByte i)) t = .next u ∧
      (∀ r, u.reg r = s.reg r) ∧
      u.mem.byte? (pushSp s).toNat = some (if i = 7 then pushSp s else s.reg i) ∧
      SameMemoryBut [(pushSp s).toNat] s u ∧ u.pc = s.pc + 4 ∧ u.fl = s.fl ∧ u.out = s.out ∧
      SameStatus s u

/-- 20_memory.md R64: a byte written by PSH, or by the host's load, is what every later cycle fetches at
that address, as its opcode and as an operand byte, as long as the address has not been written again
(so in any state whose memory is the one the write left). -/
def Obligations.StoredByteIsFetchedNext : Prop :=
  (∀ (map : OpcodeMap) (i : Fin 8) (s t u : State), (pushSp s).toNat < s.mem.size →
    exec (.psh (regByte i)) s = .next t → u.canCycle = true →
    u.mem.byte? (pushSp s).toNat = t.mem.byte? (pushSp s).toNat →
    FetchSees map (pushSp s).toNat (if i = 7 then pushSp s else s.reg i) u) ∧
  ∀ (map : OpcodeMap) (a : Nat) (b : Byte) (s u : State), s.canCycle = false →
    a < s.mem.size → u.canCycle = true →
    u.mem.byte? a = (hostState (.load a b) s).mem.byte? a → FetchSees map a b u

/-! ### The host -/

/-- 70_reset_and_hazards.md R212, R213: a load writes one cell and nothing else; one at or beyond MEM_SIZE
changes nothing and is reported. While a cycle may run the spec gives the host no load; that the model
then answers notPermitted and changes nothing is the model's choice (log entry 11). -/
def Obligations.LoadWritesOneCell : Prop :=
  ∀ (s : State) (a : Nat) (v : Byte),
    (s.canCycle = false → a < s.mem.size →
      hostReply (.load a v) s = .done ∧
      (hostState (.load a v) s).mem.byte? a = some v ∧
      SameMemoryBut [a] s (hostState (.load a v) s) ∧
      hostState (.load a v) s = s.setMem (hostState (.load a v) s).mem) ∧
    (s.canCycle = false → s.mem.size ≤ a →
      hostReply (.load a v) s = .addressOutOfRange a ∧ hostState (.load a v) s = s) ∧
    (s.canCycle = true → hostReply (.load a v) s = .notPermitted ∧ hostState (.load a v) s = s)

/-- 70_reset_and_hazards.md R214: Start and Stop write EN and change nothing else. -/
def Obligations.StartAndStopWriteEnableOnly : Prop :=
  ∀ s : State,
    (hostState .start s).en = true ∧ hostState .start s = { s with en := true } ∧
    (hostState .stop s).en = false ∧ hostState .stop s = { s with en := false }

/-- 70_reset_and_hazards.md R217, R213: boot leaves the program in cells 0 to n - 1, zero in the rest, the
reset values elsewhere and EN = 1; a program longer than memory is reported at address MEM_SIZE and
not started. -/
def Obligations.BootPlacesTheProgram : Prop :=
  ∀ (s : State) (program : List Byte),
    (program.length ≤ s.mem.size →
      ∃ t, boot program s = .ok t ∧ t.mem.size = s.mem.size ∧
        (∀ a, a < s.mem.size → t.mem.byte? a = some (program.getD a 0x00#8)) ∧
        t.canCycle = true ∧
        t = { State.resetWith s.mem.size with mem := t.mem, en := true }) ∧
    (s.mem.size < program.length → boot program s = .error (.addressOutOfRange s.mem.size))

/-- 70_reset_and_hazards.md R224: a run's result does not depend on stops and starts: after cycles, starts
and stops in any order, the state, but for EN, is the one that as many enabled steps reach as there were
cycles while EN = 1, and once the engine has halted no further step adds to it. -/
def Obligations.StopsDoNotChangeARun : Prop :=
  ∀ (map : OpcodeMap) (y : System) (es : List Event), OnlyRunAndPause es →
    (y.acts map es).core.setEn true =
      runFor map (enabledCycles y.core.en es) (y.core.setEn true) ∧
    ((y.acts map es).core.run = .halted →
      ∀ k, enabledCycles y.core.en es ≤ k →
        runFor map k (y.core.setEn true) = (y.acts map es).core.setEn true)

/-- 70_reset_and_hazards.md R216: ld_err says whether the last load was out of range: a load that is
performed sets it exactly when its address is at or beyond MEM_SIZE, and no cycle, start or stop after
it changes it. The last two clauses, that a reset clears it and that a load which is not permitted
leaves it, are the model's choice (log entry 9). -/
def Obligations.LoadErrorTellsOfTheLastLoad : Prop :=
  ∀ (map : OpcodeMap) (y : System) (es : List Event), OnlyRunAndPause es →
    (y.acts map es).ldErr = y.ldErr ∧
    (∀ a v, y.core.canCycle = false →
      (((y.act map (.host (.load a v))).acts map es).ldErr = true ↔ y.core.mem.size ≤ a)) ∧
    ((y.act map (.host .reset)).acts map es).ldErr = false ∧
    ∀ a v, y.core.canCycle = true →
      ((y.act map (.host (.load a v))).acts map es).ldErr = y.ldErr
end

