-- ==== Sys2Proof/Laws/Decode.lean ====
section
/-! SUPPORT. The dispatch table, the decoder and the encoder: what each answers. -/

namespace Sys2Proof

theorem Mnemonic.mem_all (m : Mnemonic) : m ∈ Mnemonic.all := by
  cases m <;> decide

/-! ### The dispatch table -/

theorem map_of_classify {map : OpcodeMap} {b : Byte} {m : Mnemonic} (h : classify map b = some m) :
    map m = b := by
  simpa using List.find?_some h

theorem classify_map {map : OpcodeMap} (h : map.Admissible) (m : Mnemonic) :
    classify map (map m) = some m := by
  cases hc : classify map (map m) with
  | none =>
    have := List.find?_eq_none.1 hc m m.mem_all
    simp at this
  | some n => rw [h.injective n m (map_of_classify hc)]

theorem classify_eq_none {map : OpcodeMap} {b : Byte} :
    classify map b = none ↔ WellFormed.isInvalid map b = true := by
  simp [classify, WellFormed.isInvalid, List.find?_eq_none]

theorem classify_cases (map : OpcodeMap) (b : Byte) :
    (∃ m, map m = b ∧ classify map b = some m) ∨
      (WellFormed.isInvalid map b = true ∧ classify map b = none) := by
  cases h : classify map b with
  | some m => exact .inl ⟨m, map_of_classify h, rfl⟩
  | none => exact .inr ⟨classify_eq_none.1 h, rfl⟩

/-- The default map is admissible, so statements over admissible maps are about it too. -/
theorem defaultOpcodeMap_admissible : OpcodeMap.Admissible defaultOpcodeMap where
  injective m n h := by
    have all : ∀ m ∈ Mnemonic.all, ∀ n ∈ Mnemonic.all,
        defaultOpcodeMap m = defaultOpcodeMap n → m = n := by decide
    exact all m m.mem_all n n.mem_all h
  topBits m := by cases m <;> decide
  noTop3 m := by cases m <;> decide

/-! ### Assembling an instruction from its operands -/

section
variable {ε : Type} {m : Mnemonic} {operand : Nat → Except ε Byte} {i : Instr} {e : ε}

theorem formatF1_ok {build : Byte → Instr} (h : formatF1 operand build = .ok i) :
    ∃ a, operand 1 = .ok a ∧ i = build a := by
  unfold formatF1 at h
  split at h
  · cases h
  · rename_i a ha
    cases h
    exact ⟨a, ha, rfl⟩

theorem formatF2_ok {build : Byte → Byte → Instr} (h : formatF2 operand build = .ok i) :
    ∃ a b, operand 1 = .ok a ∧ operand 2 = .ok b ∧ i = build a b := by
  unfold formatF2 at h
  split at h
  · cases h
  · rename_i a ha
    split at h
    · cases h
    · rename_i b hb
      cases h
      exact ⟨a, b, ha, hb, rfl⟩

theorem formatF1_error {build : Byte → Instr} (h : formatF1 operand build = .error e) :
    operand 1 = .error e := by
  unfold formatF1 at h
  split at h
  · rename_i ha
    cases h
    exact ha
  · cases h

theorem formatF2_error {build : Byte → Byte → Instr} (h : formatF2 operand build = .error e) :
    operand 1 = .error e ∨ (∃ a, operand 1 = .ok a) ∧ operand 2 = .error e := by
  unfold formatF2 at h
  split at h
  · rename_i ha
    cases h
    exact .inl ha
  · rename_i a ha
    split at h
    · rename_i hb
      cases h
      exact .inr ⟨⟨a, ha⟩, hb⟩
    · cases h

/-- An assembled instruction is of the mnemonic, and its operand bytes are the ones drawn. -/
theorem assemble_ok (map : OpcodeMap) (h : assemble m operand = .ok i) :
    i.mnemonic = some m ∧ i.length = m.arity + 1 ∧
      ∃ bs, encode map i = map m :: bs ∧ bs.length = m.arity ∧
        ∀ j (hj : j < bs.length), operand (j + 1) = .ok bs[j] := by
  cases m <;> unfold assemble at h <;>
  first
    | (cases h; exact ⟨rfl, rfl, [], rfl, rfl, fun j hj => absurd hj (Nat.not_lt_zero j)⟩)
    | (obtain ⟨a, ha, rfl⟩ := formatF1_ok h
       refine ⟨rfl, rfl, [a], rfl, rfl, fun j hj => ?_⟩
       obtain rfl : j = 0 := by simpa using hj
       exact ha)
    | (obtain ⟨a, b, ha, hb, rfl⟩ := formatF2_ok h
       refine ⟨rfl, rfl, [a, b], rfl, rfl, fun j hj => ?_⟩
       match j, hj with
       | 0, _ => exact ha
       | 1, _ => exact hb)

/-- Assembling fails at the first operand byte that cannot be drawn. -/
theorem assemble_error (h : assemble m operand = .error e) :
    ∃ j, 1 ≤ j ∧ j ≤ m.arity ∧ operand j = .error e ∧
      ∀ k, 1 ≤ k → k < j → ∃ b, operand k = .ok b := by
  cases m <;> unfold assemble at h <;>
  first
    | cases h
    | exact ⟨1, by decide, by decide, formatF1_error h, by omega⟩
    | (rcases formatF2_error h with h1 | ⟨⟨a, ha⟩, h2⟩
       · exact ⟨1, by decide, by decide, h1, by omega⟩
       · refine ⟨2, by decide, by decide, h2, fun k hk hk2 => ?_⟩
         obtain rfl : k = 1 := by omega
         exact ⟨a, ha⟩)

/-- Drawing the operand bytes of an encoded instruction assembles that instruction. -/
theorem assemble_encode (map : OpcodeMap) (hm : i.mnemonic = some m)
    (h : ∀ j b, (encode map i)[j + 1]? = some b → operand (j + 1) = .ok b) :
    assemble m operand = .ok i := by
  cases i <;> cases hm <;>
  first
    | rfl
    | (simp [assemble, formatF1, h 0 _ rfl]; done)
    | simp [assemble, formatF2, h 0 _ rfl, h 1 _ rfl]

/-- Decoding succeeds alike from any source that gives the same operand bytes. -/
theorem decodeFrom_mono {δ : Type} {map : OpcodeMap} {op : Byte} {source : Nat → Except δ Byte}
    (h : decodeFrom map op operand = .ok i)
    (hs : ∀ j b, operand (j + 1) = .ok b → source (j + 1) = .ok b) :
    decodeFrom map op source = .ok i := by
  unfold decodeFrom at h ⊢
  cases hc : classify map op with
  | none => simpa [hc] using h
  | some m =>
    simp only [hc] at h ⊢
    obtain ⟨hm, -, bs, he, -, hbs⟩ := assemble_ok map h
    refine assemble_encode map hm fun j b hj => hs j b ?_
    rw [he, List.getElem?_cons_succ, List.getElem?_eq_some_iff] at hj
    obtain ⟨hlt, rfl⟩ := hj
    exact hbs j hlt

end

/-- Operand byte `j + 1` of a list is the byte at index `j`. -/
theorem listOperand_ok {rest : List Byte} {j : Nat} {b : Byte} :
    listOperand rest (j + 1) = .ok b ↔ rest[j]? = some b := by
  unfold listOperand
  rw [Nat.add_sub_cancel]
  cases rest[j]? <;> simp

/-! ### The encoder -/

theorem encode_head (map : OpcodeMap) {i : Instr} {m : Mnemonic} (h : i.mnemonic = some m) :
    ∃ bs, encode map i = map m :: bs := by
  cases i <;> cases h <;> exact ⟨_, rfl⟩

/-- Every instruction is of some mnemonic, or it is an invalid opcode byte. -/
theorem Instr.mnemonic_cases (i : Instr) :
    (∃ m, i.mnemonic = some m) ∨ ∃ b, i = .invalid b := by
  cases i <;> first | exact .inl ⟨_, rfl⟩ | exact .inr ⟨_, rfl⟩

end Sys2Proof
end

