-- ==== Sys2Proof/Laws/State.lean ====
section
/-! SUPPORT. One lemma per field per update of the state, so that no proof unfolds a record update. -/

namespace Sys2Proof.Machine

/-! ### setReg -/

section
variable (s : State) (i : Fin 8) (v : Byte)

@[simp] theorem State.setReg_regs : (s.setReg i v).regs = s.regs.set i v := rfl
@[simp] theorem State.setReg_pc : (s.setReg i v).pc = s.pc := rfl
@[simp] theorem State.setReg_ir : (s.setReg i v).ir = s.ir := rfl
@[simp] theorem State.setReg_fl : (s.setReg i v).fl = s.fl := rfl
@[simp] theorem State.setReg_run : (s.setReg i v).run = s.run := rfl
@[simp] theorem State.setReg_cause : (s.setReg i v).cause = s.cause := rfl
@[simp] theorem State.setReg_faddr : (s.setReg i v).faddr = s.faddr := rfl
@[simp] theorem State.setReg_fkind : (s.setReg i v).fkind = s.fkind := rfl
@[simp] theorem State.setReg_freg : (s.setReg i v).freg = s.freg := rfl
@[simp] theorem State.setReg_mem : (s.setReg i v).mem = s.mem := rfl
@[simp] theorem State.setReg_out : (s.setReg i v).out = s.out := rfl
@[simp] theorem State.setReg_en : (s.setReg i v).en = s.en := rfl

end

/-! ### setPc -/

section
variable (s : State) (n : Nat)

@[simp] theorem State.setPc_regs : (s.setPc n).regs = s.regs := rfl
@[simp] theorem State.setPc_pc : (s.setPc n).pc = n := rfl
@[simp] theorem State.setPc_ir : (s.setPc n).ir = s.ir := rfl
@[simp] theorem State.setPc_fl : (s.setPc n).fl = s.fl := rfl
@[simp] theorem State.setPc_run : (s.setPc n).run = s.run := rfl
@[simp] theorem State.setPc_cause : (s.setPc n).cause = s.cause := rfl
@[simp] theorem State.setPc_faddr : (s.setPc n).faddr = s.faddr := rfl
@[simp] theorem State.setPc_fkind : (s.setPc n).fkind = s.fkind := rfl
@[simp] theorem State.setPc_freg : (s.setPc n).freg = s.freg := rfl
@[simp] theorem State.setPc_mem : (s.setPc n).mem = s.mem := rfl
@[simp] theorem State.setPc_out : (s.setPc n).out = s.out := rfl
@[simp] theorem State.setPc_en : (s.setPc n).en = s.en := rfl
@[simp] theorem State.setPc_reg (j : Fin 8) : (s.setPc n).reg j = s.reg j := rfl
@[simp] theorem State.setPc_sp : (s.setPc n).sp = s.sp := rfl

end

/-! ### advance -/

section
variable (s : State) (n : Nat)

@[simp] theorem State.advance_regs : (s.advance n).regs = s.regs := rfl
@[simp] theorem State.advance_pc : (s.advance n).pc = s.pc + n := rfl
@[simp] theorem State.advance_ir : (s.advance n).ir = s.ir := rfl
@[simp] theorem State.advance_fl : (s.advance n).fl = s.fl := rfl
@[simp] theorem State.advance_run : (s.advance n).run = s.run := rfl
@[simp] theorem State.advance_cause : (s.advance n).cause = s.cause := rfl
@[simp] theorem State.advance_faddr : (s.advance n).faddr = s.faddr := rfl
@[simp] theorem State.advance_fkind : (s.advance n).fkind = s.fkind := rfl
@[simp] theorem State.advance_freg : (s.advance n).freg = s.freg := rfl
@[simp] theorem State.advance_mem : (s.advance n).mem = s.mem := rfl
@[simp] theorem State.advance_out : (s.advance n).out = s.out := rfl
@[simp] theorem State.advance_en : (s.advance n).en = s.en := rfl
@[simp] theorem State.advance_reg (j : Fin 8) : (s.advance n).reg j = s.reg j := rfl
@[simp] theorem State.advance_sp : (s.advance n).sp = s.sp := rfl

end

/-! ### setIr -/

section
variable (s : State) (b : Byte)

@[simp] theorem State.setIr_regs : (s.setIr b).regs = s.regs := rfl
@[simp] theorem State.setIr_pc : (s.setIr b).pc = s.pc := rfl
@[simp] theorem State.setIr_ir : (s.setIr b).ir = b := rfl
@[simp] theorem State.setIr_fl : (s.setIr b).fl = s.fl := rfl
@[simp] theorem State.setIr_run : (s.setIr b).run = s.run := rfl
@[simp] theorem State.setIr_cause : (s.setIr b).cause = s.cause := rfl
@[simp] theorem State.setIr_faddr : (s.setIr b).faddr = s.faddr := rfl
@[simp] theorem State.setIr_fkind : (s.setIr b).fkind = s.fkind := rfl
@[simp] theorem State.setIr_freg : (s.setIr b).freg = s.freg := rfl
@[simp] theorem State.setIr_mem : (s.setIr b).mem = s.mem := rfl
@[simp] theorem State.setIr_out : (s.setIr b).out = s.out := rfl
@[simp] theorem State.setIr_en : (s.setIr b).en = s.en := rfl
@[simp] theorem State.setIr_reg (j : Fin 8) : (s.setIr b).reg j = s.reg j := rfl
@[simp] theorem State.setIr_sp : (s.setIr b).sp = s.sp := rfl

end

/-! ### setFl -/

section
variable (s : State) (b : Bool)

@[simp] theorem State.setFl_regs : (s.setFl b).regs = s.regs := rfl
@[simp] theorem State.setFl_pc : (s.setFl b).pc = s.pc := rfl
@[simp] theorem State.setFl_ir : (s.setFl b).ir = s.ir := rfl
@[simp] theorem State.setFl_fl : (s.setFl b).fl = b := rfl
@[simp] theorem State.setFl_run : (s.setFl b).run = s.run := rfl
@[simp] theorem State.setFl_cause : (s.setFl b).cause = s.cause := rfl
@[simp] theorem State.setFl_faddr : (s.setFl b).faddr = s.faddr := rfl
@[simp] theorem State.setFl_fkind : (s.setFl b).fkind = s.fkind := rfl
@[simp] theorem State.setFl_freg : (s.setFl b).freg = s.freg := rfl
@[simp] theorem State.setFl_mem : (s.setFl b).mem = s.mem := rfl
@[simp] theorem State.setFl_out : (s.setFl b).out = s.out := rfl
@[simp] theorem State.setFl_en : (s.setFl b).en = s.en := rfl
@[simp] theorem State.setFl_reg (j : Fin 8) : (s.setFl b).reg j = s.reg j := rfl
@[simp] theorem State.setFl_sp : (s.setFl b).sp = s.sp := rfl

end

/-! ### emit -/

section
variable (s : State) (v : Byte)

@[simp] theorem State.emit_regs : (s.emit v).regs = s.regs := rfl
@[simp] theorem State.emit_pc : (s.emit v).pc = s.pc := rfl
@[simp] theorem State.emit_ir : (s.emit v).ir = s.ir := rfl
@[simp] theorem State.emit_fl : (s.emit v).fl = s.fl := rfl
@[simp] theorem State.emit_run : (s.emit v).run = s.run := rfl
@[simp] theorem State.emit_cause : (s.emit v).cause = s.cause := rfl
@[simp] theorem State.emit_faddr : (s.emit v).faddr = s.faddr := rfl
@[simp] theorem State.emit_fkind : (s.emit v).fkind = s.fkind := rfl
@[simp] theorem State.emit_freg : (s.emit v).freg = s.freg := rfl
@[simp] theorem State.emit_mem : (s.emit v).mem = s.mem := rfl
@[simp] theorem State.emit_out : (s.emit v).out = s.out ++ [v] := rfl
@[simp] theorem State.emit_en : (s.emit v).en = s.en := rfl
@[simp] theorem State.emit_reg (j : Fin 8) : (s.emit v).reg j = s.reg j := rfl
@[simp] theorem State.emit_sp : (s.emit v).sp = s.sp := rfl

end

/-! ### setEn -/

section
variable (s : State) (b : Bool)

@[simp] theorem State.setEn_regs : (s.setEn b).regs = s.regs := rfl
@[simp] theorem State.setEn_pc : (s.setEn b).pc = s.pc := rfl
@[simp] theorem State.setEn_ir : (s.setEn b).ir = s.ir := rfl
@[simp] theorem State.setEn_fl : (s.setEn b).fl = s.fl := rfl
@[simp] theorem State.setEn_run : (s.setEn b).run = s.run := rfl
@[simp] theorem State.setEn_cause : (s.setEn b).cause = s.cause := rfl
@[simp] theorem State.setEn_faddr : (s.setEn b).faddr = s.faddr := rfl
@[simp] theorem State.setEn_fkind : (s.setEn b).fkind = s.fkind := rfl
@[simp] theorem State.setEn_freg : (s.setEn b).freg = s.freg := rfl
@[simp] theorem State.setEn_mem : (s.setEn b).mem = s.mem := rfl
@[simp] theorem State.setEn_out : (s.setEn b).out = s.out := rfl
@[simp] theorem State.setEn_en : (s.setEn b).en = b := rfl
@[simp] theorem State.setEn_reg (j : Fin 8) : (s.setEn b).reg j = s.reg j := rfl
@[simp] theorem State.setEn_sp : (s.setEn b).sp = s.sp := rfl

end

/-! ### setMem -/

section
variable (s : State) (m : Memory)

@[simp] theorem State.setMem_regs : (s.setMem m).regs = s.regs := rfl
@[simp] theorem State.setMem_pc : (s.setMem m).pc = s.pc := rfl
@[simp] theorem State.setMem_ir : (s.setMem m).ir = s.ir := rfl
@[simp] theorem State.setMem_fl : (s.setMem m).fl = s.fl := rfl
@[simp] theorem State.setMem_run : (s.setMem m).run = s.run := rfl
@[simp] theorem State.setMem_cause : (s.setMem m).cause = s.cause := rfl
@[simp] theorem State.setMem_faddr : (s.setMem m).faddr = s.faddr := rfl
@[simp] theorem State.setMem_fkind : (s.setMem m).fkind = s.fkind := rfl
@[simp] theorem State.setMem_freg : (s.setMem m).freg = s.freg := rfl
@[simp] theorem State.setMem_mem : (s.setMem m).mem = m := rfl
@[simp] theorem State.setMem_out : (s.setMem m).out = s.out := rfl
@[simp] theorem State.setMem_en : (s.setMem m).en = s.en := rfl
@[simp] theorem State.setMem_reg (j : Fin 8) : (s.setMem m).reg j = s.reg j := rfl
@[simp] theorem State.setMem_sp : (s.setMem m).sp = s.sp := rfl

end

/-! ### halt -/

section
variable (s : State) (c : HaltCause)

@[simp] theorem State.halt_regs : (s.halt c).regs = s.regs := rfl
@[simp] theorem State.halt_pc : (s.halt c).pc = s.pc := rfl
@[simp] theorem State.halt_ir : (s.halt c).ir = s.ir := rfl
@[simp] theorem State.halt_fl : (s.halt c).fl = s.fl := rfl
@[simp] theorem State.halt_run : (s.halt c).run = .halted := rfl
@[simp] theorem State.halt_cause : (s.halt c).cause = c := rfl
@[simp] theorem State.halt_faddr : (s.halt c).faddr = s.faddr := rfl
@[simp] theorem State.halt_fkind : (s.halt c).fkind = s.fkind := rfl
@[simp] theorem State.halt_freg : (s.halt c).freg = s.freg := rfl
@[simp] theorem State.halt_mem : (s.halt c).mem = s.mem := rfl
@[simp] theorem State.halt_out : (s.halt c).out = s.out := rfl
@[simp] theorem State.halt_en : (s.halt c).en = s.en := rfl
@[simp] theorem State.halt_reg (j : Fin 8) : (s.halt c).reg j = s.reg j := rfl
@[simp] theorem State.halt_sp : (s.halt c).sp = s.sp := rfl

end

/-! ### raise -/

section
variable (s : State) (e : Trap)

@[simp] theorem State.raise_regs : (s.raise e).regs = s.regs := by cases e <;> rfl
@[simp] theorem State.raise_pc : (s.raise e).pc = s.pc := by cases e <;> rfl
@[simp] theorem State.raise_ir : (s.raise e).ir = s.ir := by cases e <;> rfl
@[simp] theorem State.raise_fl : (s.raise e).fl = s.fl := by cases e <;> rfl
@[simp] theorem State.raise_run : (s.raise e).run = .halted := by cases e <;> rfl
@[simp] theorem State.raise_mem : (s.raise e).mem = s.mem := by cases e <;> rfl
@[simp] theorem State.raise_out : (s.raise e).out = s.out := by cases e <;> rfl
@[simp] theorem State.raise_en : (s.raise e).en = s.en := by cases e <;> rfl
@[simp] theorem State.raise_reg (j : Fin 8) : (s.raise e).reg j = s.reg j := by cases e <;> rfl
@[simp] theorem State.raise_addressOutOfRange_cause (a : Nat) (k : AccessKind) :
    (s.raise (.addressOutOfRange a k)).cause = .addressOutOfRange := rfl
@[simp] theorem State.raise_addressOutOfRange_faddr (a : Nat) (k : AccessKind) :
    (s.raise (.addressOutOfRange a k)).faddr = a := rfl
@[simp] theorem State.raise_addressOutOfRange_fkind (a : Nat) (k : AccessKind) :
    (s.raise (.addressOutOfRange a k)).fkind = k := rfl
@[simp] theorem State.raise_addressOutOfRange_freg (a : Nat) (k : AccessKind) :
    (s.raise (.addressOutOfRange a k)).freg = s.freg := rfl
@[simp] theorem State.raise_illegalRegister_cause (b : Byte) :
    (s.raise (.illegalRegister b)).cause = .illegalRegister := rfl
@[simp] theorem State.raise_illegalRegister_faddr (b : Byte) :
    (s.raise (.illegalRegister b)).faddr = s.faddr := rfl
@[simp] theorem State.raise_illegalRegister_fkind (b : Byte) :
    (s.raise (.illegalRegister b)).fkind = s.fkind := rfl
@[simp] theorem State.raise_illegalRegister_freg (b : Byte) :
    (s.raise (.illegalRegister b)).freg = b := rfl

end

/-! ### EN -/

@[simp] theorem State.setEn_setEn (s : State) (b c : Bool) : (s.setEn b).setEn c = s.setEn c := rfl

/-! ### Registers -/

theorem State.setReg_reg (s : State) (i j : Fin 8) (v : Byte) :
    (s.setReg i v).reg j = if i = j then v else s.reg j := by
  simp [State.setReg, State.reg, Vector.getElem_set, Fin.ext_iff]

@[simp] theorem State.setReg_reg_same (s : State) (i : Fin 8) (v : Byte) :
    (s.setReg i v).reg i = v := by
  simp [State.setReg_reg]

theorem State.setReg_reg_other (s : State) {i j : Fin 8} (v : Byte) (h : j ≠ i) :
    (s.setReg i v).reg j = s.reg j := by
  simp [State.setReg_reg, h.symm]

theorem State.setReg_self (s : State) (i : Fin 8) : s.setReg i (s.reg i) = s := by
  simp [State.setReg, State.reg]

/-- The registers determine the register file. -/
theorem State.regs_eq_of_reg {s t : State} (h : ∀ i, t.reg i = s.reg i) : t.regs = s.regs :=
  Vector.ext fun i hi => h ⟨i, hi⟩

end Sys2Proof.Machine
end

