-- ==== Sys2Proof/Laws/Memory.lean ====
section
/-! SUPPORT. Memory: a read after a write, and the canonical form kept by every operation. -/

namespace Sys2Proof.Machine

/-! ### Lists of cells -/

theorem cellsRead_erase (cs : List Host.Cell) (a b : Nat) :
    cellsRead (cellsErase cs a) b = if a = b then Config.blankCell else cellsRead cs b := by
  induction cs with
  | nil => simp [cellsErase, cellsRead]
  | cons c cs ih =>
    by_cases hc : c.1 = a
    · by_cases hab : a = b <;> simp_all [cellsErase, cellsRead]
    · by_cases hb : c.1 = b
      · subst hb
        simp [cellsErase, cellsRead, hc, Ne.symm hc]
      · simp [cellsErase, cellsRead, hc, hb, ih]

theorem mem_of_mem_cellsErase {cs : List Host.Cell} {a : Nat} {c : Host.Cell}
    (h : c ∈ cellsErase cs a) : c ∈ cs ∧ c.1 ≠ a := by
  induction cs with
  | nil => simp [cellsErase] at h
  | cons d cs ih =>
    by_cases hd : d.1 = a
    · simp only [cellsErase, hd, if_true] at h
      exact ⟨.tail _ (ih h).1, (ih h).2⟩
    · simp only [cellsErase, hd, if_false, List.mem_cons] at h
      rcases h with rfl | h
      · exact ⟨.head _, hd⟩
      · exact ⟨.tail _ (ih h).1, (ih h).2⟩

theorem cellsRead_insert (cs : List Host.Cell) (a b : Nat) (v : Byte) (ha : ∀ c ∈ cs, c.1 ≠ a) :
    cellsRead (cellsInsert cs a v) b = if a = b then v else cellsRead cs b := by
  induction cs with
  | nil => simp [cellsInsert, cellsRead]
  | cons c cs ih =>
    have hc : c.1 ≠ a := ha c (.head _)
    have ih' := ih fun d hd => ha d (.tail _ hd)
    by_cases hlt : a < c.1
    · simp [cellsInsert, cellsRead, hlt]
    · by_cases hcb : c.1 = b
      · subst hcb
        simp [cellsInsert, cellsRead, hlt, hc.symm]
      · simp [cellsInsert, cellsRead, hlt, hcb, ih']

theorem mem_cellsInsert {cs : List Host.Cell} {a : Nat} {v : Byte} {c : Host.Cell}
    (h : c ∈ cellsInsert cs a v) : c = (a, v) ∨ c ∈ cs := by
  induction cs with
  | nil => simpa [cellsInsert] using h
  | cons d cs ih =>
    by_cases hlt : a < d.1
    · simpa [cellsInsert, hlt] using h
    · simp only [cellsInsert, hlt, if_false, List.mem_cons] at h
      rcases h with rfl | h
      · exact .inr (.head _)
      · exact (ih h).imp id (.tail _)

/-- A write reads back at its address and nowhere else. -/
theorem cellsRead_write (cs : List Host.Cell) (a b : Nat) (v : Byte) :
    cellsRead (cellsWrite cs a v) b = if a = b then v else cellsRead cs b := by
  unfold cellsWrite
  split
  · rename_i hv
    rw [cellsRead_erase, hv]
  · rw [cellsRead_insert _ _ _ _ fun c hc => (mem_of_mem_cellsErase hc).2, cellsRead_erase]
    by_cases hab : a = b <;> simp [hab]

theorem cellsErase_sorted {cs : List Host.Cell} (a : Nat)
    (h : cs.Pairwise fun c d => c.1 < d.1) : (cellsErase cs a).Pairwise fun c d => c.1 < d.1 := by
  induction cs with
  | nil => simp [cellsErase]
  | cons c cs ih =>
    rw [List.pairwise_cons] at h
    by_cases hc : c.1 = a
    · simpa [cellsErase, hc] using ih h.2
    · simp only [cellsErase, hc, if_false, List.pairwise_cons]
      exact ⟨fun d hd => h.1 d (mem_of_mem_cellsErase hd).1, ih h.2⟩

theorem cellsInsert_sorted {cs : List Host.Cell} {a : Nat} (v : Byte) (ha : ∀ c ∈ cs, c.1 ≠ a)
    (h : cs.Pairwise fun c d => c.1 < d.1) :
    (cellsInsert cs a v).Pairwise fun c d => c.1 < d.1 := by
  induction cs with
  | nil => simp [cellsInsert]
  | cons c cs ih =>
    have hcons := List.pairwise_cons.1 h
    by_cases hlt : a < c.1
    · simp only [cellsInsert, hlt, if_true]
      refine List.pairwise_cons.2 ⟨fun d hd => ?_, h⟩
      rcases List.mem_cons.1 hd with rfl | hd
      · exact hlt
      · exact hlt.trans (hcons.1 d hd)
    · simp only [cellsInsert, hlt, if_false]
      refine List.pairwise_cons.2 ⟨fun d hd => ?_, ih (fun d hd => ha d (.tail _ hd)) hcons.2⟩
      have hca : c.1 ≠ a := ha c (.head _)
      rcases mem_cellsInsert hd with rfl | hd
      · simpa using (by omega : c.1 < a)
      · exact hcons.1 d hd

/-! ### The array -/

@[simp] theorem Memory.set_size (m : Memory) (a : Nat) (v : Byte) : (m.set a v).size = m.size := by
  unfold Memory.set; split <;> rfl

/-- A read after a write: the byte written at its address, and the old byte everywhere else. -/
theorem Memory.byte?_set (m : Memory) (a b : Nat) (v : Byte) :
    (m.set a v).byte? b = if a = b ∧ a < m.size then some v else m.byte? b := by
  unfold Memory.set Memory.byte?
  by_cases ha : a < m.size
  · by_cases hab : a = b
    · subst hab; simp [ha, cellsRead_write]
    · simp [ha, cellsRead_write, hab]
  · simp [ha]

@[simp] theorem Memory.byte?_set_same {m : Memory} {a : Nat} (v : Byte) (h : a < m.size) :
    (m.set a v).byte? a = some v := by
  simp [Memory.byte?_set, h]

theorem Memory.byte?_set_other (m : Memory) {a b : Nat} (v : Byte) (h : b ≠ a) :
    (m.set a v).byte? b = m.byte? b := by
  simp [Memory.byte?_set, h.symm]

theorem Memory.byte?_eq_none {m : Memory} {a : Nat} : m.byte? a = none ↔ m.size ≤ a := by
  simp [Memory.byte?]

theorem Memory.lt_of_byte?_eq_some {m : Memory} {a : Nat} {v : Byte} (h : m.byte? a = some v) :
    a < m.size := by
  by_contra hn
  rw [Memory.byte?_eq_none.2 (Nat.le_of_not_lt hn)] at h
  cases h

theorem Memory.byte?_of_lt {m : Memory} {a : Nat} (h : a < m.size) : ∃ v, m.byte? a = some v := by
  simp [Memory.byte?, h]

/-- A write keeps the canonical form. -/
theorem Memory.set_wf {m : Memory} (a : Nat) (v : Byte) (h : m.wf) : (m.set a v).wf := by
  unfold Memory.set
  split
  · rename_i ha
    have he : ∀ c ∈ cellsErase m.cells a, c.1 ≠ a := fun c hc => (mem_of_mem_cellsErase hc).2
    have hm : ∀ c ∈ cellsErase m.cells a, c.1 < m.size ∧ c.2 ≠ Config.blankCell :=
      fun c hc => h.2 c (mem_of_mem_cellsErase hc).1
    simp only [Memory.wf, cellsWrite]
    split
    · exact ⟨cellsErase_sorted a h.1, hm⟩
    · rename_i hv
      refine ⟨cellsInsert_sorted v he (cellsErase_sorted a h.1), fun c hc => ?_⟩
      rcases mem_cellsInsert hc with rfl | hc
      · exact ⟨ha, hv⟩
      · exact hm c hc
  · exact h

@[simp] theorem Memory.setBytes_size (m : Memory) (a : Nat) (bs : List Byte) :
    (m.setBytes a bs).size = m.size := by
  induction bs generalizing m a with
  | nil => rfl
  | cons b bs ih => simp [Memory.setBytes, ih]

/-- Storing a row of bytes keeps the canonical form. -/
theorem Memory.setBytes_wf {m : Memory} (a : Nat) (bs : List Byte) (h : m.wf) :
    (m.setBytes a bs).wf := by
  induction bs generalizing m a with
  | nil => exact h
  | cons b bs ih => exact ih _ (Memory.set_wf a b h)

/-- Storing a row of bytes changes no address before it. -/
theorem Memory.byte?_setBytes_before (m : Memory) (a : Nat) (bs : List Byte) {b : Nat} (h : b < a) :
    (m.setBytes a bs).byte? b = m.byte? b := by
  induction bs generalizing m a with
  | nil => rfl
  | cons v bs ih =>
    simp only [Memory.setBytes]
    rw [ih _ _ (by omega), Memory.byte?_set_other _ _ (by omega)]

/-- The memory at construction is canonical. -/
theorem Memory.blank_wf (size : Nat) : ({ size := size, cells := [] } : Memory).wf := by
  simp [Memory.wf]

/-! ### The traps of an access -/

theorem memRead_ok {k : AccessKind} {a : Nat} {s : State} {v : Byte}
    (h : s.mem.byte? a = some v) : memRead k a s = .ok v := by
  simp [memRead, h]

theorem memRead_trap {k : AccessKind} {a : Nat} {s : State} (h : s.mem.size ≤ a) :
    memRead k a s = .error (.addressOutOfRange a k) := by
  simp [memRead, Memory.byte?_eq_none.2 h]

/-- Everything a read can answer. -/
theorem memRead_cases (k : AccessKind) (a : Nat) (s : State) :
    (∃ v, s.mem.byte? a = some v ∧ memRead k a s = .ok v) ∨
      (s.mem.size ≤ a ∧ memRead k a s = .error (.addressOutOfRange a k)) := by
  cases h : s.mem.byte? a with
  | some v => exact .inl ⟨v, rfl, memRead_ok h⟩
  | none => exact .inr ⟨Memory.byte?_eq_none.1 h, memRead_trap (Memory.byte?_eq_none.1 h)⟩

theorem memWrite_ok {a : Nat} (v : Byte) {s : State} (h : a < s.mem.size) :
    memWrite a v s = .ok (s.setMem (s.mem.set a v)) := by
  simp [memWrite, h]

theorem memWrite_trap {a : Nat} (v : Byte) {s : State} (h : s.mem.size ≤ a) :
    memWrite a v s = .error (.addressOutOfRange a .dataWrite) := by
  simp [memWrite, Nat.not_lt.2 h]

end Sys2Proof.Machine
end

