-- ==== Sys2Proof/Laws/Operands.lean ====
section
/-! SUPPORT. What the operand forms answer, and how an instruction ends. -/

namespace Sys2Proof.Machine

@[simp] theorem regByte_toNat (i : Fin 8) : (regByte i).toNat = i.val := by
  revert i; decide

theorem regByte_injective {i j : Fin 8} (h : regByte i = regByte j) : i = j := by
  have := congrArg BitVec.toNat h
  simpa [Fin.ext_iff] using this

/-- A byte below 8 names a register. -/
theorem eq_regByte_of_lt {b : Byte} (h : b.toNat < 8) : ∃ i, b = regByte i :=
  ⟨⟨b.toNat, h⟩, BitVec.eq_of_toNat_eq (by simp)⟩

theorem regIndex_of_lt {b : Byte} (h : b.toNat < 8) : regIndex b = .ok ⟨b.toNat, h⟩ := by
  simp [regIndex, h]

@[simp] theorem regIndex_regByte (i : Fin 8) : regIndex (regByte i) = .ok i := by
  simp [regIndex, i.isLt]

theorem regIndex_illegal {b : Byte} (h : 8 ≤ b.toNat) :
    regIndex b = .error (.illegalRegister b) := by
  simp [regIndex, Nat.not_lt.2 h]

/-- Everything the register check can answer. -/
theorem regIndex_cases (b : Byte) :
    (∃ i, b = regByte i ∧ regIndex b = .ok i) ∨
      (8 ≤ b.toNat ∧ regIndex b = .error (.illegalRegister b)) := by
  by_cases h : b.toNat < 8
  · obtain ⟨i, rfl⟩ := eq_regByte_of_lt h
    exact .inl ⟨i, rfl, regIndex_regByte i⟩
  · exact .inr ⟨Nat.le_of_not_lt h, regIndex_illegal (Nat.le_of_not_lt h)⟩

@[simp] theorem regPair_regByte (i j : Fin 8) : regPair (regByte i) (regByte j) = .ok (i, j) := by
  simp [regPair, bind, Except.bind]

theorem regPair_first {a : Byte} (b : Byte) (h : 8 ≤ a.toNat) :
    regPair a b = .error (.illegalRegister a) := by
  simp [regPair, regIndex_illegal h, bind, Except.bind]

theorem regPair_second (i : Fin 8) {b : Byte} (h : 8 ≤ b.toNat) :
    regPair (regByte i) b = .error (.illegalRegister b) := by
  simp [regPair, regIndex_illegal h, bind, Except.bind]

/-- Everything the check of two registers can answer. -/
theorem regPair_cases (a b : Byte) :
    (∃ i j, a = regByte i ∧ b = regByte j ∧ regPair a b = .ok (i, j)) ∨
      (8 ≤ a.toNat ∧ regPair a b = .error (.illegalRegister a)) ∨
      (∃ i, a = regByte i ∧ 8 ≤ b.toNat ∧ regPair a b = .error (.illegalRegister b)) := by
  rcases regIndex_cases a with ⟨i, rfl, -⟩ | ⟨h, -⟩
  · rcases regIndex_cases b with ⟨j, rfl, -⟩ | ⟨h, -⟩
    · exact .inl ⟨i, j, rfl, rfl, regPair_regByte i j⟩
    · exact .inr (.inr ⟨i, rfl, h, regPair_second i h⟩)
  · exact .inr (.inl ⟨h, regPair_first b h⟩)

/-! ### The end of an instruction -/

@[simp] theorem complete_ok (s t : State) : complete s (.ok t) = .next t := rfl

@[simp] theorem complete_error (s : State) (e : Trap) :
    complete s (.error e) = .next (s.raise e) := rfl

/-- An instruction ends in the state it computes or in the trap it raises, and never otherwise. -/
theorem complete_cases {s t : State} {r : Except Trap State} (h : complete s r = .next t) :
    r = .ok t ∨ ∃ e, r = .error e ∧ t = s.raise e := by
  cases r with
  | ok u => cases h; exact .inl rfl
  | error e => cases h; exact .inr ⟨e, rfl, rfl⟩

theorem complete_next (s : State) (r : Except Trap State) : ∃ t, complete s r = .next t := by
  cases r <;> exact ⟨_, rfl⟩

end Sys2Proof.Machine
end

