-- ==== Sys2Proof/Laws/Exec.lean ====
section
/-! SUPPORT. What each instruction answers, said once: on registers that exist, and on a register byte of
8 or more. Proofs cite these and do not unfold the meanings. -/

namespace Sys2Proof.Machine

variable (s : State) (i j : Fin 8)

/-! ### One and two register operands that do not exist -/

theorem aluTwo_first (op : AluOp) {a : Byte} (b : Byte) (h : 8 ≤ a.toNat) :
    aluTwo op a b s = .error (.illegalRegister a) := by
  simp [aluTwo, regPair_first b h, bind, Except.bind]

theorem aluTwo_second (op : AluOp) {b : Byte} (h : 8 ≤ b.toNat) :
    aluTwo op (regByte i) b s = .error (.illegalRegister b) := by
  simp [aluTwo, regPair_second i h, bind, Except.bind]

theorem aluTwo_ok (op : AluOp) :
    aluTwo op (regByte i) (regByte j) s =
      .ok ((s.writeBack i (aluApply op (s.reg i) (s.reg j))).advance 3) := by
  simp [aluTwo, bind, Except.bind]

theorem aluOne_illegal (op : AluOp) {r : Byte} (h : 8 ≤ r.toNat) :
    aluOne op r s = .error (.illegalRegister r) := by
  simp [aluOne, regIndex_illegal h, bind, Except.bind]

theorem aluOne_ok (op : AluOp) :
    aluOne op (regByte i) s =
      .ok ((s.writeBack i (aluApply op (s.reg i) (s.reg i))).advance 2) := by
  simp [aluOne, bind, Except.bind]

/-- An instruction one of whose register operands is illegal raises IllegalRegister of the first such
byte. -/
theorem exec_illegal {n : Instr} {s : State} {b : Byte}
    (h : n.regOperands.find? (fun b => decide (8 ≤ b.toNat)) = some b) :
    exec n s = .next (s.raise (.illegalRegister b)) := by
  have one : ∀ {r : Byte}, [r].find? (fun b => decide (8 ≤ b.toNat)) = some b →
      8 ≤ r.toNat ∧ r = b := by
    intro r h
    by_cases hr : 8 ≤ r.toNat <;> simp_all
  have two : ∀ {x y : Byte}, [x, y].find? (fun b => decide (8 ≤ b.toNat)) = some b →
      (8 ≤ x.toNat ∧ x = b) ∨ (∃ i, x = regByte i ∧ 8 ≤ y.toNat ∧ y = b) := by
    intro x y h
    by_cases hx : 8 ≤ x.toNat
    · simp_all
    · obtain ⟨i, rfl⟩ := eq_regByte_of_lt (Nat.lt_of_not_le hx)
      by_cases hy : 8 ≤ y.toNat <;> simp_all
  cases n with
  | nop | hlt | ret | irt | pra | cal | int | str | invalid _ => cases h
  | prn r | pop r | psh r | jmp r | jeq r | jne r | inc r | dec r =>
    obtain ⟨hr, rfl⟩ := one h
    simp [exec, execPrn, execPop, execPsh, execJmp, execJeq, execJne, execInc, execDec, jumpIf,
      aluOne_illegal, regIndex_illegal, hr, bind, Except.bind]
  | ldi r imm =>
    obtain ⟨hr, rfl⟩ := one h
    simp [exec, execLdi, regIndex_illegal hr, bind, Except.bind]
  | lds x y | cmp x y | add x y | sub x y | mul x y | div x y =>
    obtain ⟨hx, rfl⟩ | ⟨i, rfl, hy, rfl⟩ := two h
    · simp [exec, execLds, execCmp, execAdd, execSub, execMul, execDiv, ldsBody, aluTwo_first,
        regPair_first, hx, bind, Except.bind]
    · simp [exec, execLds, execCmp, execAdd, execSub, execMul, execDiv, ldsBody, aluTwo_second,
        regPair_second, hy, bind, Except.bind]

/-! ### Loads -/

theorem exec_ldi (imm : Byte) :
    exec (.ldi (regByte i) imm) s = .next ((s.setReg i imm).advance 3) := by
  simp [exec, execLdi, immediate, bind, Except.bind]

theorem exec_lds {k : Fin 8} (h : s.reg j = regByte k) :
    exec (.lds (regByte i) (regByte j)) s = .next ((s.setReg i (s.reg k)).advance 3) := by
  simp [exec, execLds, ldsBody, ldsMode, ldsSource, h, bind, Except.bind]

theorem exec_lds_index_illegal (h : 8 ≤ (s.reg j).toNat) :
    exec (.lds (regByte i) (regByte j)) s = .next (s.raise (.illegalRegister (s.reg j))) := by
  simp [exec, execLds, ldsBody, ldsMode, ldsSource, regIndex_illegal h, bind, Except.bind]

/-! ### ALU -/

theorem exec_add :
    exec (.add (regByte i) (regByte j)) s =
      .next ((s.setReg i (s.reg i + s.reg j)).advance 3) := by
  simp [exec, execAdd, aluTwo_ok, State.writeBack, aluApply, aluResult]

theorem exec_sub :
    exec (.sub (regByte i) (regByte j)) s =
      .next ((s.setReg i (s.reg i - s.reg j)).advance 3) := by
  simp [exec, execSub, aluTwo_ok, State.writeBack, aluApply, aluResult]

theorem exec_mul :
    exec (.mul (regByte i) (regByte j)) s =
      .next ((s.setReg i (s.reg i * s.reg j)).advance 3) := by
  simp [exec, execMul, aluTwo_ok, State.writeBack, aluApply, aluResult]

theorem exec_div (h : s.reg j ≠ 0x00#8) :
    exec (.div (regByte i) (regByte j)) s =
      .next ((s.setReg i (s.reg i / s.reg j)).advance 3) := by
  simp [exec, execDiv, aluTwo_ok, State.writeBack, aluApply, aluResult, h]

theorem exec_div_zero (h : s.reg j = 0x00#8) :
    exec (.div (regByte i) (regByte j)) s = .next (s.advance 3) := by
  simp [exec, execDiv, aluTwo_ok, State.writeBack, aluApply, aluResult, h]

theorem exec_inc :
    exec (.inc (regByte i)) s = .next ((s.setReg i (s.reg i + 1)).advance 2) := by
  simp [exec, execInc, aluOne_ok, State.writeBack, aluApply, aluResult]

theorem exec_dec :
    exec (.dec (regByte i)) s = .next ((s.setReg i (s.reg i - 1)).advance 2) := by
  simp [exec, execDec, aluOne_ok, State.writeBack, aluApply, aluResult]

theorem exec_cmp :
    exec (.cmp (regByte i) (regByte j)) s =
      .next ((s.setFl (s.reg i == s.reg j)).advance 3) := by
  simp [exec, execCmp, aluApply, equalFlag, bind, Except.bind]

/-! ### Control transfer -/

theorem exec_jmp : exec (.jmp (regByte i)) s = .next (s.setPc (s.reg i).toNat) := by
  simp [exec, execJmp, jumpIf, zext, bind, Except.bind]

theorem exec_jeq :
    exec (.jeq (regByte i)) s =
      .next (if s.fl = true then s.setPc (s.reg i).toNat else s.advance 2) := by
  cases h : s.fl <;> simp [exec, execJeq, jumpIf, jeqTaken, zext, h, bind, Except.bind]

theorem exec_jne :
    exec (.jne (regByte i)) s =
      .next (if s.fl = false then s.setPc (s.reg i).toNat else s.advance 2) := by
  cases h : s.fl <;> simp [exec, execJne, jumpIf, jneTaken, zext, h, bind, Except.bind]

/-! ### Stack -/

theorem sp_eq : s.sp = s.reg 7 := rfl

theorem pushValue_eq : pushValue s i = if i = 7 then pushSp s else s.reg i := rfl

theorem exec_psh (h : (pushSp s).toNat < s.mem.size) :
    exec (.psh (regByte i)) s =
      .next (((s.setMem (s.mem.set (pushSp s).toNat (pushValue s i))).setReg Config.spIndex
        (pushSp s)).advance 2) := by
  simp [exec, execPsh, memWrite_ok _ h, bind, Except.bind]

theorem exec_psh_trap (h : s.mem.size ≤ (pushSp s).toNat) :
    exec (.psh (regByte i)) s =
      .next (s.raise (.addressOutOfRange (pushSp s).toNat .dataWrite)) := by
  simp [exec, execPsh, memWrite_trap _ h, bind, Except.bind]

theorem exec_pop {v : Byte} (h : s.mem.byte? s.sp.toNat = some v) :
    exec (.pop (regByte i)) s =
      .next (((s.setReg i v).setReg Config.spIndex ((s.setReg i v).sp + 1)).advance 2) := by
  simp [exec, execPop, memRead_ok h, bind, Except.bind]

theorem exec_pop_trap (h : s.mem.size ≤ s.sp.toNat) :
    exec (.pop (regByte i)) s = .next (s.raise (.addressOutOfRange s.sp.toNat .dataRead)) := by
  simp [exec, execPop, memRead_trap h, bind, Except.bind]

/-! ### Machine control -/

theorem exec_nop : exec .nop s = .next (s.advance 1) := rfl

theorem exec_prn : exec (.prn (regByte i)) s = .next ((s.emit (s.reg i)).advance 2) := by
  simp [exec, execPrn, bind, Except.bind]

theorem exec_hlt : exec .hlt s = .next ((s.advance 1).halt .hlt) := rfl

theorem exec_invalid (b : Byte) : exec (.invalid b) s = .next (s.halt .invalidOpcode) := rfl

/-- The reserved opcodes, as instructions. -/
theorem exec_reserved {n : Instr} {m : Mnemonic} (hn : n.mnemonic = some m)
    (hm : m.isReserved = true) : exec n s = .next (s.halt .reservedOpcode) := by
  cases n <;> cases hn <;> first | rfl | cases hm

/-! ### What an instruction can do at all -/

/-- The effects that instructions have: each constructor is one shape of next state, with the instructions
that can have it. -/
inductive Effect (n : Instr) (s : State) : State → Prop where
  | illegal (b : Byte) (hb : 8 ≤ b.toNat) : Effect n s (s.raise (.illegalRegister b))
  | outside (a : Nat) (k : AccessKind) (ha : s.mem.size ≤ a) (ha' : a ≤ 255) :
      Effect n s (s.raise (.addressOutOfRange a k))
  | write (i : Fin 8) (v : Byte) (hi : writtenRegs s n = [i]) :
      Effect n s ((s.setReg i v).advance n.length)
  | goOn : Effect n s (s.advance n.length)
  | jump (p : Nat) (hp : p ≤ 255) (r : Byte) (hn : n = .jmp r ∨ n = .jeq r ∨ n = .jne r) :
      Effect n s (s.setPc p)
  | compare (b : Bool) (x y : Byte) (hn : n = .cmp x y) : Effect n s ((s.setFl b).advance n.length)
  | print (v r : Byte) (hn : n = .prn r) : Effect n s ((s.emit v).advance n.length)
  | push (v r : Byte) (hn : n = .psh r) (ha : (pushSp s).toNat < s.mem.size) :
      Effect n s (((s.setMem (s.mem.set (pushSp s).toNat v)).setReg Config.spIndex
        (pushSp s)).advance n.length)
  | pop (i : Fin 8) (v w : Byte) (hi : writtenRegs s n = [Config.spIndex, i]) :
      Effect n s (((s.setReg i v).setReg Config.spIndex w).advance n.length)
  | hlt (hn : n = .hlt) : Effect n s ((s.advance n.length).halt .hlt)
  | invalid (b : Byte) (hn : n = .invalid b) : Effect n s (s.halt .invalidOpcode)
  | reserved (m : Mnemonic) (hn : n.mnemonic = some m) (hm : m.isReserved = true) :
      Effect n s (s.halt .reservedOpcode)

@[simp] theorem namedRegs_regByte : namedRegs [regByte i] = [i] := by
  simp [namedRegs, i.isLt]

/-- An instruction with one register operand: it completes on a register that exists, or it raises
IllegalRegister. -/
theorem Effect.ofOne {n : Instr} {s : State} {r : Byte} (hn : n.regOperands = [r])
    (hok : ∀ i, r = regByte i → ∃ t, exec n s = .next t ∧ Effect n s t) :
    ∃ t, exec n s = .next t ∧ Effect n s t := by
  rcases regIndex_cases r with ⟨i, hi, -⟩ | ⟨hr, -⟩
  · exact hok i hi
  · exact ⟨_, exec_illegal (by simp [hn, hr]), .illegal r hr⟩

/-- An instruction with two register operands, likewise. -/
theorem Effect.ofTwo {n : Instr} {s : State} {x y : Byte} (hn : n.regOperands = [x, y])
    (hok : ∀ i j, x = regByte i → y = regByte j → ∃ t, exec n s = .next t ∧ Effect n s t) :
    ∃ t, exec n s = .next t ∧ Effect n s t := by
  rcases regPair_cases x y with ⟨i, j, hi, hj, -⟩ | ⟨hx, -⟩ | ⟨i, rfl, hy, -⟩
  · exact hok i j hi hj
  · exact ⟨_, exec_illegal (by simp [hn, hx]), .illegal x hx⟩
  · exact ⟨_, exec_illegal (b := y) (by simp [hn, hy, Nat.not_le.2 i.isLt]), .illegal y hy⟩

/-- A byte is below 256, so an address it holds is at most 255. -/
theorem Byte.toNat_le (b : Byte) : b.toNat ≤ 255 :=
  Nat.le_of_lt_succ b.isLt

/-- Each instruction answers a next state of one of the shapes above. -/
theorem exec_effect (n : Instr) (s : State) : ∃ t, exec n s = .next t ∧ Effect n s t := by
  cases n with
  | nop => exact ⟨_, exec_nop s, .goOn⟩
  | hlt => exact ⟨_, exec_hlt s, .hlt rfl⟩
  | ret | irt | pra | cal | int | str =>
    exact ⟨_, exec_reserved s rfl rfl, .reserved _ rfl rfl⟩
  | invalid b => exact ⟨_, exec_invalid s b, .invalid b rfl⟩
  | prn r => exact Effect.ofOne rfl fun i hi => ⟨_, hi ▸ exec_prn s i, .print _ r rfl⟩
  | inc r =>
    exact Effect.ofOne rfl fun i hi => ⟨_, hi ▸ exec_inc s i, .write i _ (by simp [hi, writtenRegs])⟩
  | dec r =>
    exact Effect.ofOne rfl fun i hi => ⟨_, hi ▸ exec_dec s i, .write i _ (by simp [hi, writtenRegs])⟩
  | ldi r imm =>
    exact Effect.ofOne rfl fun i hi =>
      ⟨_, hi ▸ exec_ldi s i imm, .write i _ (by simp [hi, writtenRegs])⟩
  | jmp r =>
    exact Effect.ofOne rfl fun i hi => ⟨_, hi ▸ exec_jmp s i, .jump _ (Byte.toNat_le _) r (.inl rfl)⟩
  | jeq r =>
    refine Effect.ofOne rfl fun i hi => ⟨_, hi ▸ exec_jeq s i, ?_⟩
    split
    · exact .jump _ (Byte.toNat_le _) r (.inr (.inl rfl))
    · exact .goOn
  | jne r =>
    refine Effect.ofOne rfl fun i hi => ⟨_, hi ▸ exec_jne s i, ?_⟩
    split
    · exact .jump _ (Byte.toNat_le _) r (.inr (.inr rfl))
    · exact .goOn
  | psh r =>
    refine Effect.ofOne rfl fun i hi => ?_
    by_cases ha : (pushSp s).toNat < s.mem.size
    · exact ⟨_, hi ▸ exec_psh s i ha, .push _ r rfl ha⟩
    · have ha := Nat.le_of_not_lt ha
      exact ⟨_, hi ▸ exec_psh_trap s i ha, .outside _ _ ha (Byte.toNat_le _)⟩
  | pop r =>
    refine Effect.ofOne rfl fun i hi => ?_
    rcases memRead_cases .dataRead s.sp.toNat s with ⟨v, hv, -⟩ | ⟨ha, -⟩
    · exact ⟨_, hi ▸ exec_pop s i hv, .pop i v _ (by simp [hi, writtenRegs])⟩
    · exact ⟨_, hi ▸ exec_pop_trap s i ha, .outside _ _ ha (Byte.toNat_le _)⟩
  | cmp x y => exact Effect.ofTwo rfl fun i j hi hj => ⟨_, hi ▸ hj ▸ exec_cmp s i j, .compare _ x y rfl⟩
  | add x y =>
    exact Effect.ofTwo rfl fun i j hi hj =>
      ⟨_, hi ▸ hj ▸ exec_add s i j, .write i _ (by simp [hi, writtenRegs])⟩
  | sub x y =>
    exact Effect.ofTwo rfl fun i j hi hj =>
      ⟨_, hi ▸ hj ▸ exec_sub s i j, .write i _ (by simp [hi, writtenRegs])⟩
  | mul x y =>
    exact Effect.ofTwo rfl fun i j hi hj =>
      ⟨_, hi ▸ hj ▸ exec_mul s i j, .write i _ (by simp [hi, writtenRegs])⟩
  | div x y =>
    refine Effect.ofTwo rfl fun i j hi hj => ?_
    by_cases hz : s.reg j = 0x00#8
    · exact ⟨_, hi ▸ hj ▸ exec_div_zero s i j hz, .goOn⟩
    · exact ⟨_, hi ▸ hj ▸ exec_div s i j hz, .write i _ (by simp [hi, hj, writtenRegs, hz])⟩
  | lds x y =>
    refine Effect.ofTwo rfl fun i j hi hj => ?_
    rcases regIndex_cases (s.reg j) with ⟨k, hk, -⟩ | ⟨hk, -⟩
    · exact ⟨_, hi ▸ hj ▸ exec_lds s i j hk, .write i _ (by simp [hi, writtenRegs])⟩
    · exact ⟨_, hi ▸ hj ▸ exec_lds_index_illegal s i j hk, .illegal _ hk⟩

/-- The inversion lemma of `exec`: whatever it answers has one of the shapes of `Effect`. -/
theorem effect_of_exec {n : Instr} {s t : State} (h : exec n s = .next t) : Effect n s t := by
  obtain ⟨u, hu, he⟩ := exec_effect n s
  rw [hu] at h
  cases h
  exact he

end Sys2Proof.Machine
end

