-- ==== Sys2Proof/Laws/Step.lean ====
section
/-! SUPPORT. What fetching, a cycle, a step and a run can answer. -/

namespace Sys2Proof.Machine

variable {map : OpcodeMap} {s t : State} {n : Instr}

/-! ### Fetch -/

/-- Everything the fetch half of a cycle can answer (spec/30_encoding.md R85 to R87). -/
inductive FetchEffect (map : OpcodeMap) (s : State) : Fetched → Prop where
  | noOpcode (ha : s.mem.size ≤ s.pc) :
      FetchEffect map s (.trapped (.addressOutOfRange s.pc .opcodeFetch) s)
  | noOperand (op : Byte) (j : Nat) (m : Mnemonic) (hop : s.mem.byte? s.pc = some op)
      (hm : classify map op = some m) (h1 : 1 ≤ j) (h2 : j ≤ m.arity)
      (ha : s.pc + j = s.mem.size) :
      FetchEffect map s (.trapped (.addressOutOfRange (s.pc + j) .operandFetch) (s.setIr op))
  | invalid (op : Byte) (hop : s.mem.byte? s.pc = some op) (hm : classify map op = none) :
      FetchEffect map s (.ready (.invalid op) (s.setIr op))
  | ready (op : Byte) (m : Mnemonic) (i : Instr) (bs : List Byte)
      (hop : s.mem.byte? s.pc = some op) (hm : classify map op = some m)
      (hi : i.mnemonic = some m) (hl : i.length = m.arity + 1) (he : encode map i = op :: bs)
      (hlen : bs.length = m.arity)
      (hbs : ∀ j (hj : j < bs.length), s.mem.byte? (s.pc + (j + 1)) = some bs[j]) :
      FetchEffect map s (.ready i (s.setIr op))

theorem fetchOperand_ok {j : Nat} {b : Byte} (h : fetchOperand s j = .ok b) :
    s.mem.byte? (s.pc + j) = some b := by
  rcases memRead_cases .operandFetch (s.pc + j) s with ⟨v, hv, hr⟩ | ⟨-, hr⟩
  · rw [fetchOperand, hr] at h; cases h; exact hv
  · rw [fetchOperand, hr] at h; cases h

theorem fetchOperand_error {j : Nat} {e : Trap} (h : fetchOperand s j = .error e) :
    s.mem.size ≤ s.pc + j ∧ e = .addressOutOfRange (s.pc + j) .operandFetch := by
  rcases memRead_cases .operandFetch (s.pc + j) s with ⟨v, hv, hr⟩ | ⟨ho, hr⟩
  · rw [fetchOperand, hr] at h; cases h
  · rw [fetchOperand, hr] at h; cases h; exact ⟨ho, rfl⟩

theorem fetch_of_opcode {op : Byte} (h : s.mem.byte? s.pc = some op) :
    fetch map s =
      match decodeFrom map op (fetchOperand (s.setIr op)) with
      | .error e => .trapped e (s.setIr op)
      | .ok i => .ready i (s.setIr op) := by
  simp only [fetch, fetchOpcode, memRead_ok h] <;> rfl

theorem fetch_effect (map : OpcodeMap) (s : State) : FetchEffect map s (fetch map s) := by
  rcases memRead_cases .opcodeFetch s.pc s with ⟨op, hop, -⟩ | ⟨ha, hr⟩
  · rw [fetch_of_opcode hop]
    cases hc : classify map op with
    | none =>
      simp only [decodeFrom, hc]
      exact .invalid op hop hc
    | some m =>
      simp only [decodeFrom, hc]
      cases ho : assemble m (fetchOperand (s.setIr op)) with
      | ok i =>
        obtain ⟨hi, hl, bs, he, hlen, hbs⟩ := assemble_ok map ho
        rw [map_of_classify hc] at he
        exact .ready op m i bs hop hc hi hl he hlen fun j hj => fetchOperand_ok (hbs j hj)
      | error e =>
        obtain ⟨j, h1, h2, he, hk⟩ := assemble_error ho
        obtain ⟨hout, rfl⟩ := fetchOperand_error he
        refine .noOperand op j m hop hc h1 h2 (Nat.le_antisymm ?_ hout)
        have hpc := Memory.lt_of_byte?_eq_some hop
        by_cases hj : j = 1
        · subst hj; exact hpc
        · obtain ⟨b, hb⟩ := hk (j - 1) (by omega) (by omega)
          have := Memory.lt_of_byte?_eq_some (fetchOperand_ok hb)
          simp only [State.setIr_mem, State.setIr_pc] at this
          omega
  · have : fetch map s = .trapped (.addressOutOfRange s.pc .opcodeFetch) s := by
      simp only [fetch, fetchOpcode, hr]
    rw [this]
    exact .noOpcode ha

/-! ### Step -/

theorem canCycle_iff : s.canCycle = true ↔ s.run = .running ∧ s.en = true := by
  simp [State.canCycle]

theorem stepWith_wait (h : s.canCycle = false) : stepWith map s = .next s := by
  simp [stepWith, h]

theorem stepWith_cycle (h : s.canCycle = true) : stepWith map s = cycle map s := by
  simp [stepWith, h]

theorem stepWith_trapped {e : Trap} (h : s.canCycle = true) (hf : fetch map s = .trapped e t) :
    stepWith map s = .next (t.raise e) := by
  simp [stepWith_cycle h, cycle, hf]

theorem stepWith_ready (h : s.canCycle = true) (hf : fetch map s = .ready n t) :
    stepWith map s = exec n t := by
  simp [stepWith_cycle h, cycle, hf]

theorem stepWith_noOpcode (h : s.canCycle = true) (ha : s.mem.size ≤ s.pc) :
    stepWith map s = .next (s.raise (.addressOutOfRange s.pc .opcodeFetch)) := by
  refine stepWith_trapped h ?_
  simp [fetch, fetchOpcode, memRead_trap ha]

/-- A step whose opcode is fetched executes an instruction with that opcode, or traps at an operand. -/
theorem stepWith_opcode {op : Byte} (h : s.canCycle = true) (hop : s.mem.byte? s.pc = some op) :
    (∃ j m, classify map op = some m ∧ 1 ≤ j ∧ j ≤ m.arity ∧ s.pc + j = s.mem.size ∧
      stepWith map s =
        .next ((s.setIr op).raise (.addressOutOfRange (s.pc + j) .operandFetch))) ∨
    (classify map op = none ∧ stepWith map s = exec (.invalid op) (s.setIr op)) ∨
    (∃ m i bs, classify map op = some m ∧ i.mnemonic = some m ∧ i.length = m.arity + 1 ∧
      encode map i = op :: bs ∧ bs.length = m.arity ∧
      (∀ j (hj : j < bs.length), s.mem.byte? (s.pc + (j + 1)) = some bs[j]) ∧
      stepWith map s = exec i (s.setIr op)) := by
  have hf := fetch_effect map s
  generalize hg : fetch map s = f at hf
  cases hf with
  | noOpcode ha => rw [Memory.byte?_eq_none.2 ha] at hop; cases hop
  | noOperand op' j m hop' hm h1 h2 ha =>
    rw [hop] at hop'; cases hop'
    exact .inl ⟨j, m, hm, h1, h2, ha, stepWith_trapped h hg⟩
  | invalid op' hop' hm =>
    rw [hop] at hop'; cases hop'
    exact .inr (.inl ⟨hm, stepWith_ready h hg⟩)
  | ready op' m i bs hop' hm hi hl he hlen hbs =>
    rw [hop] at hop'; cases hop'
    exact .inr (.inr ⟨m, i, bs, hm, hi, hl, he, hlen, hbs, stepWith_ready h hg⟩)

/-- The inversion lemma of a step: it waits, traps at the opcode, traps at an operand, or executes an
instruction that lies whole in memory, in the state whose IR holds its opcode. -/
theorem stepWith_cases (h : stepWith map s = .next t) :
    (s.canCycle = false ∧ t = s) ∨
    (s.canCycle = true ∧ s.mem.size ≤ s.pc ∧
      t = s.raise (.addressOutOfRange s.pc .opcodeFetch)) ∨
    (∃ op j, s.canCycle = true ∧ s.mem.byte? s.pc = some op ∧ 1 ≤ j ∧ j ≤ 2 ∧
      s.pc + j = s.mem.size ∧
      t = (s.setIr op).raise (.addressOutOfRange (s.pc + j) .operandFetch)) ∨
    (∃ op i, s.canCycle = true ∧ s.mem.byte? s.pc = some op ∧ s.pc + i.length ≤ s.mem.size ∧
      Effect i (s.setIr op) t) := by
  cases hc : s.canCycle with
  | false =>
    rw [stepWith_wait hc] at h; cases h
    exact .inl ⟨rfl, rfl⟩
  | true =>
    rcases memRead_cases .opcodeFetch s.pc s with ⟨op, hop, -⟩ | ⟨ha, -⟩
    · have hpc := Memory.lt_of_byte?_eq_some hop
      rcases stepWith_opcode (map := map) hc hop with
        ⟨j, m, -, h1, h2, ha, hs⟩ | ⟨-, hs⟩ | ⟨m, i, bs, -, -, hl, -, hlen, hbs, hs⟩
      · rw [hs] at h; cases h
        have : m.arity ≤ 2 := by cases m <;> decide
        exact .inr (.inr (.inl ⟨op, j, rfl, hop, h1, h2.trans this, ha, rfl⟩))
      · rw [hs] at h
        exact .inr (.inr (.inr ⟨op, .invalid op, rfl, hop, hpc, effect_of_exec h⟩))
      · rw [hs] at h
        refine .inr (.inr (.inr ⟨op, i, rfl, hop, ?_, effect_of_exec h⟩))
        cases ha : m.arity with
        | zero => omega
        | succ k =>
          have hk : k < bs.length := by omega
          have := Memory.lt_of_byte?_eq_some (hbs k hk)
          omega
    · rw [stepWith_noOpcode hc ha] at h; cases h
      exact .inr (.inl ⟨rfl, ha, rfl⟩)

/-- A step answers a next state, and `next` is that state. -/
theorem stepWith_eq_next (map : OpcodeMap) (s : State) : stepWith map s = .next (next map s) := by
  have h : ∃ t, stepWith map s = .next t := by
    cases hc : s.canCycle with
    | false => exact ⟨s, stepWith_wait hc⟩
    | true =>
      rw [stepWith_cycle hc]
      cases hf : fetch map s with
      | trapped e u => exact ⟨u.raise e, by simp only [cycle, hf]⟩
      | ready i u =>
        obtain ⟨t, ht, -⟩ := exec_effect i u
        exact ⟨t, by simpa only [cycle, hf] using ht⟩
  obtain ⟨t, ht⟩ := h
  simp only [next, ht]

theorem next_wait (h : s.canCycle = false) : next map s = s := by
  simp only [next, stepWith_wait h]

/-! ### The bytes at the program counter -/

theorem byte?_of_bytesFrom {m : Memory} {a k j : Nat} {b : Byte}
    (h : (m.bytesFrom a k)[j]? = some b) : m.byte? (a + j) = some b := by
  induction k generalizing a j with
  | zero => simp [Memory.bytesFrom] at h
  | succ k ih =>
    cases hb : m.byte? a with
    | none => simp [Memory.bytesFrom, hb] at h
    | some v =>
      simp only [Memory.bytesFrom, hb] at h
      cases j with
      | zero => simpa [hb] using h
      | succ j =>
        rw [List.getElem?_cons_succ] at h
        rw [Nat.add_comm j 1, ← Nat.add_assoc]
        exact ih h

/-- When bytes from pc on decode to an instruction, a step executes it. -/
theorem stepWith_of_decode {bs : List Byte} (hc : s.canCycle = true)
    (hb : ∀ j b, bs[j]? = some b → s.mem.byte? (s.pc + j) = some b)
    (hd : decode map bs = .ok n) :
    ∃ op, s.mem.byte? s.pc = some op ∧ stepWith map s = exec n (s.setIr op) := by
  cases bs with
  | nil => cases hd
  | cons op rest =>
    have hop : s.mem.byte? s.pc = some op := hb 0 op rfl
    refine ⟨op, hop, stepWith_ready hc ?_⟩
    have : decodeFrom map op (fetchOperand (s.setIr op)) = .ok n :=
      decodeFrom_mono hd fun j b hj =>
        memRead_ok (hb (j + 1) b (by rw [List.getElem?_cons_succ]; exact listOperand_ok.1 hj))
    rw [fetch_of_opcode hop, this]

/-! ### Placing an instruction -/

theorem byte?_setBytes {m : Memory} {a j : Nat} {bs : List Byte} {b : Byte}
    (h : a + bs.length ≤ m.size) (hj : bs[j]? = some b) :
    (m.setBytes a bs).byte? (a + j) = some b := by
  induction bs generalizing m a j with
  | nil => cases hj
  | cons v bs ih =>
    rw [List.length_cons] at h
    cases j with
    | zero =>
      rw [List.getElem?_cons_zero] at hj
      simp only [Memory.setBytes, Nat.add_zero]
      rw [Memory.byte?_setBytes_before _ _ _ (Nat.lt_succ_self a),
        Memory.byte?_set_same v (by omega), hj]
    | succ j =>
      rw [List.getElem?_cons_succ] at hj
      have := ih (m := m.set a v) (a := a + 1) (by rw [Memory.set_size]; omega) hj
      simpa [Memory.setBytes, Nat.add_assoc, Nat.add_comm 1] using this

/-- A word of the opcode table placed by the host is what the next step fetches and runs. -/
theorem step_withFetchWord {nbits w : Nat} (hs : maxLength ≤ s.mem.size)
    (hd : decodeTableWord nbits w = some n) :
    ∃ op, step (s.withFetchWord nbits w) = exec n ((s.withFetchWord nbits w).setIr op) := by
  have hdec : decode defaultOpcodeMap (tableBytes nbits w) = .ok n := by
    unfold decodeTableWord at hd
    split at hd
    · cases hd; assumption
    · cases hd
  have hbase : fetchBase s + maxLength ≤ s.mem.size := by
    unfold fetchBase
    split <;> omega
  obtain ⟨op, -, h⟩ := stepWith_of_decode (map := defaultOpcodeMap)
    (s := s.withFetchWord nbits w) (bs := tableBytes nbits w) rfl
    (fun j b hj => byte?_setBytes (by simpa [tableBytes] using hbase) hj) hdec
  exact ⟨op, h⟩

end Sys2Proof.Machine
end

