-- ==== Sys2Proof/Laws/Host.lean ====
section
/-! SUPPORT. What one event does to the core and to ld_err, and how a run's steps add up. -/

namespace Sys2Proof.Machine

section
variable (map : OpcodeMap) (y : System) (a : Nat) (v : Byte) (en : Bool) (es : List Event)

/-! ### One event -/

@[simp] theorem System.act_cycle_core : (y.act map .cycle).core = next map y.core := rfl
@[simp] theorem System.act_cycle_ldErr : (y.act map .cycle).ldErr = y.ldErr := rfl
@[simp] theorem System.act_start_core : (y.act map (.host .start)).core = y.core.setEn true := rfl
@[simp] theorem System.act_start_ldErr : (y.act map (.host .start)).ldErr = y.ldErr := rfl
@[simp] theorem System.act_stop_core : (y.act map (.host .stop)).core = y.core.setEn false := rfl
@[simp] theorem System.act_stop_ldErr : (y.act map (.host .stop)).ldErr = y.ldErr := rfl
@[simp] theorem System.act_reset_core :
    (y.act map (.host .reset)).core = State.resetWith y.core.mem.size := rfl
@[simp] theorem System.act_reset_ldErr : (y.act map (.host .reset)).ldErr = false := rfl

theorem System.act_load_core :
    (y.act map (.host (.load a v))).core =
      if y.core.canCycle then y.core else y.core.setMem (y.core.mem.set a v) := rfl

/-- ld_err after a load: the address's verdict, or the old value when the load is not permitted. -/
theorem System.act_load_ldErr :
    (y.act map (.host (.load a v))).ldErr =
      if y.core.canCycle then y.ldErr else decide (y.core.mem.size ≤ a) := by
  simp only [System.act, ldErrAfter, hostReply]
  by_cases hc : y.core.canCycle = true
  · simp [hc]
  · by_cases ha : a < y.core.mem.size <;> simp [hc, ha]
    omega

/-! ### Sequences of events -/

@[simp] theorem System.acts_nil : y.acts map [] = y := rfl
@[simp] theorem System.acts_cons (e : Event) : y.acts map (e :: es) = (y.act map e).acts map es :=
  rfl

@[simp] theorem enabledCycles_nil : enabledCycles en [] = 0 := rfl
@[simp] theorem enabledCycles_cycle :
    enabledCycles en (.cycle :: es) = enabledCycles en es + en.toNat := rfl
@[simp] theorem enabledCycles_start :
    enabledCycles en (.host .start :: es) = enabledCycles true es := rfl
@[simp] theorem enabledCycles_stop :
    enabledCycles en (.host .stop :: es) = enabledCycles false es := rfl
@[simp] theorem enabledCycles_reset :
    enabledCycles en (.host .reset :: es) = enabledCycles false es := rfl
@[simp] theorem enabledCycles_load :
    enabledCycles en (.host (.load a v) :: es) = enabledCycles en es := rfl

end

/-! ### Runs -/

variable {map : OpcodeMap} {s : State}

theorem runFor_add (m n : Nat) : runFor map (m + n) s = runFor map n (runFor map m s) := by
  induction m generalizing s with
  | zero => simp [runFor]
  | succ m ih => rw [Nat.succ_add]; exact ih

/-- A halted engine takes no further cycle (spec/30_encoding.md R90). -/
theorem runFor_halted (h : s.run = .halted) (n : Nat) : runFor map n s = s := by
  induction n with
  | zero => rfl
  | succ n ih => rw [runFor, next_wait (by simp [State.canCycle, h]), ih]

end Sys2Proof.Machine
end

