-- ==== Sys2Proof/Laws/PerInstr.lean ====
section
/-! SUPPORT. Statements for all instructions, one lemma per constructor. -/

namespace Sys2Proof.Laws.EncodedLength

/-- The encoding of an instruction has the length its format gives it (spec/30_encoding.md R70, R72). -/
def Statement (i : Instr) : Prop :=
  ∀ map : OpcodeMap, (encode map i).length = i.length ∧ 1 ≤ i.length ∧ i.length ≤ maxLength

theorem nop : Statement .nop := fun _ => ⟨rfl, by decide, by decide⟩
theorem hlt : Statement .hlt := fun _ => ⟨rfl, by decide, by decide⟩
theorem ret : Statement .ret := fun _ => ⟨rfl, by decide, by decide⟩
theorem irt : Statement .irt := fun _ => ⟨rfl, by decide, by decide⟩
theorem pra : Statement .pra := fun _ => ⟨rfl, by decide, by decide⟩
theorem cal : Statement .cal := fun _ => ⟨rfl, by decide, by decide⟩
theorem int : Statement .int := fun _ => ⟨rfl, by decide, by decide⟩
theorem str : Statement .str := fun _ => ⟨rfl, by decide, by decide⟩
theorem prn (r : Byte) : Statement (.prn r) :=
  fun _ => ⟨rfl, Nat.le_of_ble_eq_true rfl, Nat.le_of_ble_eq_true rfl⟩
theorem pop (r : Byte) : Statement (.pop r) :=
  fun _ => ⟨rfl, Nat.le_of_ble_eq_true rfl, Nat.le_of_ble_eq_true rfl⟩
theorem psh (r : Byte) : Statement (.psh r) :=
  fun _ => ⟨rfl, Nat.le_of_ble_eq_true rfl, Nat.le_of_ble_eq_true rfl⟩
theorem jmp (r : Byte) : Statement (.jmp r) :=
  fun _ => ⟨rfl, Nat.le_of_ble_eq_true rfl, Nat.le_of_ble_eq_true rfl⟩
theorem jeq (r : Byte) : Statement (.jeq r) :=
  fun _ => ⟨rfl, Nat.le_of_ble_eq_true rfl, Nat.le_of_ble_eq_true rfl⟩
theorem jne (r : Byte) : Statement (.jne r) :=
  fun _ => ⟨rfl, Nat.le_of_ble_eq_true rfl, Nat.le_of_ble_eq_true rfl⟩
theorem inc (r : Byte) : Statement (.inc r) :=
  fun _ => ⟨rfl, Nat.le_of_ble_eq_true rfl, Nat.le_of_ble_eq_true rfl⟩
theorem dec (r : Byte) : Statement (.dec r) :=
  fun _ => ⟨rfl, Nat.le_of_ble_eq_true rfl, Nat.le_of_ble_eq_true rfl⟩
theorem lds (a b : Byte) : Statement (.lds a b) :=
  fun _ => ⟨rfl, Nat.le_of_ble_eq_true rfl, Nat.le_of_ble_eq_true rfl⟩
theorem cmp (a b : Byte) : Statement (.cmp a b) :=
  fun _ => ⟨rfl, Nat.le_of_ble_eq_true rfl, Nat.le_of_ble_eq_true rfl⟩
theorem add (a b : Byte) : Statement (.add a b) :=
  fun _ => ⟨rfl, Nat.le_of_ble_eq_true rfl, Nat.le_of_ble_eq_true rfl⟩
theorem sub (a b : Byte) : Statement (.sub a b) :=
  fun _ => ⟨rfl, Nat.le_of_ble_eq_true rfl, Nat.le_of_ble_eq_true rfl⟩
theorem mul (a b : Byte) : Statement (.mul a b) :=
  fun _ => ⟨rfl, Nat.le_of_ble_eq_true rfl, Nat.le_of_ble_eq_true rfl⟩
theorem div (a b : Byte) : Statement (.div a b) :=
  fun _ => ⟨rfl, Nat.le_of_ble_eq_true rfl, Nat.le_of_ble_eq_true rfl⟩
theorem ldi (r imm : Byte) : Statement (.ldi r imm) :=
  fun _ => ⟨rfl, Nat.le_of_ble_eq_true rfl, Nat.le_of_ble_eq_true rfl⟩
theorem invalid (b : Byte) : Statement (.invalid b) :=
  fun _ => ⟨rfl, Nat.le_of_ble_eq_true rfl, Nat.le_of_ble_eq_true rfl⟩

end Sys2Proof.Laws.EncodedLength
end

