-- ==== Sys2Proof/Tests/Slice0.lean ====
section
/-! SUPPORT. Tests: expected results are taken from spec/95_test_vectors.md (V-, L1- and P- names) or worked
out from a rule by hand; then one witness for each statement that has hypotheses. -/

namespace Sys2Proof.Tests

open Sys2Proof.Machine

/-! ### A small state -/

/-- Reset with `size` cells, the bytes at address 0 and EN = 1 (spec/95_test_vectors.md). -/
def loadedIn (size : Nat) (bytes : List Byte) : State :=
  { State.resetWith size with mem := (State.resetWith size).mem.setBytes 0 bytes, en := true }

/-- The same at 256 cells. -/
def loaded (bytes : List Byte) : State :=
  loadedIn 256 bytes

/-- The state after one step. -/
def ran (s : State) : State :=
  next defaultOpcodeMap s

/-- Bytes at the address, and pc there. -/
def loadedAt (a : Nat) (bytes : List Byte) : State :=
  { loaded [] with mem := (loaded []).mem.setBytes a bytes, pc := a }

/-- The step of a state answers that state: every step answers a next state. -/
theorem step_ran (s : State) : stepWith defaultOpcodeMap s = .next (ran s) :=
  stepWith_eq_next defaultOpcodeMap s

/-! ### Well-formedness refuses -/

/-- A register operand of 8 (30_encoding.md R74). -/
theorem test_wellFormed_refuses_register8 :
    (Instr.inc 0x08#8).wellFormed defaultOpcodeMap = false := by decide

/-- An `invalid` byte that is an opcode (30_encoding.md R78). -/
theorem test_wellFormed_refuses_assigned_byte :
    (Instr.invalid 0x99#8).wellFormed defaultOpcodeMap = false := by decide

theorem test_wellFormed_accepts :
    (Instr.lds 0x07#8 0x00#8).wellFormed defaultOpcodeMap = true ∧
      (Instr.invalid 0xC0#8).wellFormed defaultOpcodeMap = true := by decide

/-- A map with two mnemonics on one byte is not admissible (30_encoding.md R76, condition 1). -/
theorem test_admissible_refuses_shared_byte :
    ¬ OpcodeMap.Admissible (fun m => if m = .hlt then 0x00#8 else defaultOpcodeMap m) :=
  fun h => absurd (h.injective .hlt .nop (by decide)) (by decide)

/-- A map that gives NOP a byte of arity 1 is not admissible (R76, condition 2). -/
theorem test_admissible_refuses_wrong_arity :
    ¬ OpcodeMap.Admissible (fun m => if m = .nop then 0x40#8 else defaultOpcodeMap m) :=
  fun h => absurd (h.topBits .nop (by decide)) (by decide)

/-- A map that puts a reserved opcode at 0b11xxxxxx is not admissible (R71). -/
theorem test_admissible_refuses_top_bits_11 :
    ¬ OpcodeMap.Admissible (fun m => if m = .cal then 0xC8#8 else defaultOpcodeMap m) :=
  fun h => absurd (by decide) (h.noTop3 .cal)

/-! ### Decoding words written out from 30_encoding.md R72, R77 -/

theorem test_decode_loads :
    decode defaultOpcodeMap [0b10011001#8, 0b00000011#8, 0b11111111#8] = .ok (.ldi 0x03#8 0xFF#8) ∧
      decode defaultOpcodeMap [0b10011000#8, 0b00000000#8, 0b00000101#8] =
        .ok (.lds 0x00#8 0x05#8) := ⟨rfl, rfl⟩

theorem test_decode_alu :
    decode defaultOpcodeMap [0b10101000#8, 0b00000111#8, 0b00000001#8] = .ok (.add 0x07#8 0x01#8) ∧
      decode defaultOpcodeMap [0b10101001#8, 0b00000010#8, 0b00000001#8] =
        .ok (.sub 0x02#8 0x01#8) ∧
      decode defaultOpcodeMap [0b10101010#8, 0b00000000#8, 0b00000001#8] =
        .ok (.mul 0x00#8 0x01#8) ∧
      decode defaultOpcodeMap [0b10101011#8, 0b00000000#8, 0b00000010#8] =
        .ok (.div 0x00#8 0x02#8) ∧
      decode defaultOpcodeMap [0b01111000#8, 0b00000111#8] = .ok (.inc 0x07#8) ∧
      decode defaultOpcodeMap [0b01111001#8, 0b00000000#8] = .ok (.dec 0x00#8) ∧
      decode defaultOpcodeMap [0b10100000#8, 0b00000100#8, 0b00000100#8] =
        .ok (.cmp 0x04#8 0x04#8) := ⟨rfl, rfl, rfl, rfl, rfl, rfl, rfl⟩

theorem test_decode_jumps :
    decode defaultOpcodeMap [0b01010000#8, 0b00000010#8] = .ok (.jmp 0x02#8) ∧
      decode defaultOpcodeMap [0b01010001#8, 0b00000110#8] = .ok (.jeq 0x06#8) ∧
      decode defaultOpcodeMap [0b01010010#8, 0b00000010#8] = .ok (.jne 0x02#8) := ⟨rfl, rfl, rfl⟩

theorem test_decode_stack :
    decode defaultOpcodeMap [0b01001101#8, 0b00000111#8] = .ok (.psh 0x07#8) ∧
      decode defaultOpcodeMap [0b01001100#8, 0b00000001#8] = .ok (.pop 0x01#8) := ⟨rfl, rfl⟩

theorem test_decode_control :
    decode defaultOpcodeMap [0b00000000#8] = .ok .nop ∧
      decode defaultOpcodeMap [0b00000001#8] = .ok .hlt ∧
      decode defaultOpcodeMap [0b01000011#8, 0b00000111#8] = .ok (.prn 0x07#8) ∧
      decode defaultOpcodeMap [0b11000000#8] = .ok (.invalid 0xC0#8) ∧
      decode defaultOpcodeMap [0b00000010#8] = .ok (.invalid 0x02#8) := ⟨rfl, rfl, rfl, rfl, rfl⟩

/-- The reserved opcodes take no operand byte, whatever their bits [7:6] (44_machine_control.md R164). -/
theorem test_decode_reserved :
    decode defaultOpcodeMap [0b00001001#8] = .ok .ret ∧
      decode defaultOpcodeMap [0b00001011#8] = .ok .irt ∧
      decode defaultOpcodeMap [0b01000010#8] = .ok .pra ∧
      decode defaultOpcodeMap [0b01001000#8] = .ok .cal ∧
      decode defaultOpcodeMap [0b01001010#8] = .ok .int ∧
      decode defaultOpcodeMap [0b10011010#8] = .ok .str := ⟨rfl, rfl, rfl, rfl, rfl, rfl⟩

theorem test_decode_too_short :
    decode defaultOpcodeMap [] = .error .noOpcode ∧
      decode defaultOpcodeMap [0x78#8] = .error (.missingOperand 1) ∧
      decode defaultOpcodeMap [0x99#8, 0x00#8] = .error (.missingOperand 2) := ⟨rfl, rfl, rfl⟩

theorem test_decodeTableWord :
    decodeTableWord 24 0x080099 = some (.ldi 0x00#8 0x08#8) ∧
      decodeTableWord 8 0x99 = some (.ldi 0x00#8 0x00#8) ∧ decodeTableWord 8 0x09 = some .ret := by
  decide

theorem test_withFetchWord :
    (ran (State.reset.withFetchWord 24 0x080099)).reg 0 = 0x08#8 ∧
      (ran (State.reset.withFetchWord 24 0x080099)).pc = 3 := by decide

/-! ### Loads -/

/-- V-LD-4. -/
theorem test_ldi_sets_sp :
    (ran (loaded [0x99#8, 0x07#8, 0x10#8])).sp = 0x10#8 ∧
      (ran (loaded [0x99#8, 0x07#8, 0x10#8])).pc = 3 := by decide

/-- V-LD-13. -/
theorem test_ldi_register8_traps :
    (ran (loaded [0x99#8, 0x08#8, 0x01#8])).cause = .illegalRegister ∧
      (ran (loaded [0x99#8, 0x08#8, 0x01#8])).freg = 0x08#8 ∧
      (ran (loaded [0x99#8, 0x08#8, 0x01#8])).pc = 0 := by decide

/-- V-LD-9: the index is read before the write. -/
theorem test_lds_same_register :
    (ran (((loaded [0x98#8, 0x00#8, 0x00#8]).setReg 0 4).setReg 4 99)).reg 0 = 99 := by decide

/-- V-LD-12. -/
theorem test_lds_index_255_traps :
    (ran ((loaded [0x98#8, 0x00#8, 0x05#8]).setReg 5 255)).freg = 0xFF#8 ∧
      (ran ((loaded [0x98#8, 0x00#8, 0x05#8]).setReg 5 255)).cause = .illegalRegister ∧
      (ran ((loaded [0x98#8, 0x00#8, 0x05#8]).setReg 5 255)).ir = 0x98#8 := by decide

/-- P3: the two readings of LDS give R0 = 77 and R0 = M[3] = 0x99. -/
theorem test_lds_readings :
    let s := ((loaded [0x99#8, 0x05#8, 0x03#8, 0x99#8]).setReg 5 3).setReg 3 77
    ((ldsBody .register 0x00#8 0x05#8 s).toOption.map fun t => t.reg 0) = some 77 ∧
      ((ldsBody .memory 0x00#8 0x05#8 s).toOption.map fun t => t.reg 0) = some 0x99#8 := by decide

/-! ### ALU -/

/-- V-ALU-2. -/
theorem test_add_wraps :
    (ran (((loaded [0xA8#8, 0x00#8, 0x01#8]).setReg 0 200).setReg 1 100)).reg 0 = 44 := by decide

/-- V-ALU-33. -/
theorem test_add_register8_traps :
    (ran (loaded [0xA8#8, 0x00#8, 0x08#8])).freg = 0x08#8 ∧
      (ran (loaded [0xA8#8, 0x00#8, 0x08#8])).cause = .illegalRegister := by decide

/-- V-ALU-8. -/
theorem test_sub_wraps :
    (ran ((loaded [0xA9#8, 0x02#8, 0x01#8]).setReg 1 100)).reg 2 = 156 := by decide

/-- V-ALU-12. -/
theorem test_mul_wraps :
    (ran (((loaded [0xAA#8, 0x00#8, 0x01#8]).setReg 0 255).setReg 1 255)).reg 0 = 1 := by decide

/-- V-ALU-15. -/
theorem test_div_truncates :
    (ran (((loaded [0xAB#8, 0x00#8, 0x01#8]).setReg 0 7).setReg 1 2)).reg 0 = 3 := by decide

/-- V-ALU-19. -/
theorem test_div_by_zero_goes_on :
    (ran ((loaded [0xAB#8, 0x00#8, 0x02#8]).setReg 0 44)).reg 0 = 44 ∧
      (ran ((loaded [0xAB#8, 0x00#8, 0x02#8]).setReg 0 44)).pc = 3 ∧
      (ran ((loaded [0xAB#8, 0x00#8, 0x02#8]).setReg 0 44)).run = .running := by decide

/-- V-ALU-25. -/
theorem test_inc_wraps_sp :
    (ran ((loaded [0x78#8, 0x07#8]).setReg 7 255)).sp = 0 ∧
      (ran ((loaded [0x78#8, 0x07#8]).setReg 7 255)).pc = 2 := by decide

/-- V-ALU-28. -/
theorem test_dec_wraps : (ran (loaded [0x79#8, 0x00#8])).reg 0 = 255 := by decide

/-- V-ALU-31. -/
theorem test_cmp_clears_flag :
    (ran ((((loaded [0xA0#8, 0x00#8, 0x01#8]).setReg 0 1).setReg 1 2).setFl true)).fl = false := by
  decide

/-- V-ALU-35. -/
theorem test_cmp_register12_traps :
    (ran (loaded [0xA0#8, 0x0C#8, 0x00#8])).freg = 0x0C#8 ∧
      (ran (loaded [0xA0#8, 0x0C#8, 0x00#8])).fl = false := by decide

/-! ### Control transfer -/

/-- V-BR-1. -/
theorem test_jmp : (ran ((loadedAt 20 [0x50#8, 0x02#8]).setReg 2 9)).pc = 9 := by decide

/-- V-BR-13, the fetch after the jump. -/
theorem test_jump_past_memory_traps_at_fetch :
    (ran ((loadedIn 16 []).setPc 200)).faddr = 200 ∧
      (ran ((loadedIn 16 []).setPc 200)).fkind = .opcodeFetch ∧
      (ran ((loadedIn 16 []).setPc 200)).pc = 200 := by decide

/-- V-BR-5, V-BR-6. -/
theorem test_jeq :
    (ran (((loadedAt 15 [0x51#8, 0x06#8]).setReg 6 20).setFl true)).pc = 20 ∧
      (ran ((loadedAt 15 [0x51#8, 0x06#8]).setReg 6 20)).pc = 17 := by decide

/-- V-BR-11: the register of an untaken jump is checked. -/
theorem test_jeq_untaken_register9_traps :
    (ran (loaded [0x51#8, 0x09#8])).freg = 0x09#8 ∧ (ran (loaded [0x51#8, 0x09#8])).pc = 0 := by
  decide

/-- V-BR-7, V-BR-8. -/
theorem test_jne :
    (ran ((loadedAt 16 [0x52#8, 0x02#8]).setReg 2 9)).pc = 9 ∧
      (ran (((loadedAt 16 [0x52#8, 0x02#8]).setReg 2 9).setFl true)).pc = 18 := by decide

/-! ### Stack -/

/-- V-STK-5, the PSH: R7 stores its decremented value. -/
theorem test_psh_r7 :
    (ran (loaded [0x4D#8, 0x07#8])).mem.byte? 0xF7 = some 0xF7#8 ∧
      (ran (loaded [0x4D#8, 0x07#8])).sp = 0xF7#8 := by decide

/-- V-STK-10. -/
theorem test_psh_past_memory_traps :
    (ran (loadedIn 16 [0x4D#8, 0x00#8])).faddr = 0xF7 ∧
      (ran (loadedIn 16 [0x4D#8, 0x00#8])).fkind = .dataWrite ∧
      (ran (loadedIn 16 [0x4D#8, 0x00#8])).sp = 0xF8#8 := by decide

/-- V-STK-8, the POP: R7 = 16, then 17. -/
theorem test_pop_r7 :
    (ran (((loaded [0x4C#8, 0x07#8]).setMem
      ((loaded [0x4C#8, 0x07#8]).mem.set 0xF7 16)).setReg 7 0xF7#8)).sp = 17 := by decide

/-- V-STK-11. -/
theorem test_pop_past_memory_traps :
    (ran (loadedIn 16 [0x4C#8, 0x00#8])).faddr = 0xF8 ∧
      (ran (loadedIn 16 [0x4C#8, 0x00#8])).fkind = .dataRead ∧
      (ran (loadedIn 16 [0x4C#8, 0x00#8])).cause = .addressOutOfRange := by decide

/-! ### Machine control and fetch -/

/-- V-MC-1. -/
theorem test_nop :
    ran (loadedAt 4 [0x00#8]) = { loadedAt 4 [0x00#8] with pc := 5, ir := 0x00#8 } := by decide

/-- V-MC-4. -/
theorem test_prn_sp : (ran (loaded [0x43#8, 0x07#8])).out = [248] := by decide

/-- V-MC-5. -/
theorem test_prn_register8_emits_nothing :
    (ran (loaded [0x43#8, 0x08#8])).out = [] ∧
      (ran (loaded [0x43#8, 0x08#8])).cause = .illegalRegister := by decide

/-- V-MC-6. -/
theorem test_hlt :
    (ran (loadedAt 11 [0x01#8])).pc = 12 ∧ (ran (loadedAt 11 [0x01#8])).run = .halted ∧
      (ran (loadedAt 11 [0x01#8])).cause = .hlt := by decide

/-- V-MC-7. -/
theorem test_invalid :
    ran (loaded [0xFF#8]) =
      { loaded [0xFF#8] with run := .halted, cause := .invalidOpcode, ir := 0xFF#8 } := by decide

/-- V-MC-10 to V-MC-15. -/
theorem test_reserved_opcodes :
    ∀ b ∈ [0x48#8, 0x09#8, 0x4A#8, 0x0B#8, 0x9A#8, 0x42#8],
      ran (loaded [b]) =
        { loaded [b] with run := .halted, cause := .reservedOpcode, ir := b } := by decide

/-- V-MC-16: a reserved opcode reads no operand. -/
theorem test_reserved_at_last_cell :
    (ran (loadedAt 255 [0x48#8])).cause = .reservedOpcode ∧
      (ran (loadedAt 255 [0x48#8])).pc = 255 := by decide

/-- V-LD-15, V-LD-16. -/
theorem test_operand_fetch_past_memory :
    (ran (loadedAt 254 [0x99#8, 0x00#8])).faddr = 256 ∧
      (ran (loadedAt 254 [0x99#8, 0x00#8])).fkind = .operandFetch ∧
      (ran (loadedAt 254 [0x99#8, 0x00#8])).pc = 254 ∧
      (ran (loadedAt 255 [0x99#8])).faddr = 256 ∧
      (ran (loadedAt 255 [0x99#8])).ir = 0x99#8 := by decide

/-- V-MC-17. -/
theorem test_opcode_fetch_past_memory :
    ran ((loaded []).setPc 256) =
      { (loaded []).setPc 256 with run := .halted, cause := .addressOutOfRange, faddr := 256 } := by
  decide

/-- P5, the overwritten opcode: PSH stores HLT where the next cycle fetches. -/
theorem test_self_modifying :
    (ran (ran (((loadedAt 6 [0x4D#8, 0x00#8, 0x43#8, 0x00#8]).setReg 7 9).setReg 0 1))).cause =
      .hlt := by decide

/-! ### The host -/

/-- V-H-4, V-MC-18. -/
theorem test_no_cycle_when_stopped_or_halted :
    ran State.reset = State.reset ∧
      ran (hostState .start (ran (loaded [0x01#8]))) = ran (loaded [0x01#8]) := by decide

/-- V-H-1, V-H-2. -/
theorem test_host_loads :
    (hostState (.load 0 0x01#8) State.reset).mem.byte? 0 = some 0x01#8 ∧
      hostReply (.load 256 0x00#8) State.reset = .addressOutOfRange 256 ∧
      hostState (.load 256 0x00#8) State.reset = State.reset := by decide

/-- A failed load raises ld_err and the next good one clears it (70_reset_and_hazards.md R216). -/
theorem test_ld_err :
    let y : System := { core := State.reset, ldErr := false }
    (y.act defaultOpcodeMap (.host (.load 256 0x00#8))).ldErr = true ∧
      (y.acts defaultOpcodeMap
        [.host (.load 256 0x00#8), .host (.load 0 0x01#8)]).ldErr = false := by decide

/-- A stored zero is not listed, so memories that read alike are equal data. -/
theorem test_memory_canonical :
    (((loaded []).mem.set 5 0x07#8).set 5 0x00#8) = (loaded []).mem ∧
      (((loaded []).mem.set 5 0x07#8).set 3 0x01#8).cells = [(3, 0x01#8), (5, 0x07#8)] := by decide

/-! ### Witnesses: each statement with hypotheses has a state and operands that meet them

The default map is admissible (`defaultOpcodeMap_admissible`). A state whose `canCycle` is true is any
`loaded` one. `step_ran` gives the state a step answers. -/

/-- A running state that meets the invariant and is not the reset state. -/
theorem witness_invariant : (loaded [0x99#8, 0x00#8, 0x08#8]).Inv where
  memWf := by decide
  sizePos := by decide
  pcReach := by decide
  faddrReach := by decide
  haltedIffCause := by decide
  faddrOutside := by decide
  faddrIdle := by decide
  fregOutside := by decide
  fregIdle := by decide

/-- A halted state that meets the invariant: ADDRESS_OUT_OF_RANGE at 256. -/
theorem witness_invariant_halted : (ran ((loaded []).setPc 256)).Inv where
  memWf := by decide
  sizePos := by decide
  pcReach := by decide
  faddrReach := by decide
  haltedIffCause := by decide
  faddrOutside := by decide
  faddrIdle := by decide
  fregOutside := by decide
  fregIdle := by decide

theorem witness_DecodingAnEncodingGivesItBack :
    OpcodeMap.Admissible defaultOpcodeMap ∧
      WellFormed.encodable defaultOpcodeMap (.invalid 0xFF#8) = true ∧
      WellFormed.encodable defaultOpcodeMap (.ldi 0x07#8 0xFF#8) = true :=
  ⟨defaultOpcodeMap_admissible, by decide, by decide⟩

theorem witness_DecodedBytesAreTheEncoding :
    decode defaultOpcodeMap [0x78#8, 0xFF#8, 0x01#8] = .ok (.inc 0xFF#8) := rfl

theorem witness_OpcodeBytesFallIntoThreeClasses :
    OpcodeMap.Admissible defaultOpcodeMap ∧ 0xC0 ≤ (0xC0#8).toNat :=
  ⟨defaultOpcodeMap_admissible, by decide⟩

theorem witness_TopBits11AreInvalid :
    OpcodeMap.Admissible defaultOpcodeMap ∧ (0xC0#8).extractLsb 7 6 = 0b11#2 :=
  ⟨defaultOpcodeMap_admissible, by decide⟩

theorem witness_LengthIsOnePlusTopBits :
    OpcodeMap.Admissible defaultOpcodeMap ∧
      decode defaultOpcodeMap (0x99#8 :: [0x00#8, 0x08#8]) = .ok (.ldi 0x00#8 0x08#8) ∧
      (Instr.ldi 0x00#8 0x08#8).mnemonic = some .ldi ∧ Mnemonic.isReserved .ldi = false :=
  ⟨defaultOpcodeMap_admissible, rfl, rfl, rfl⟩

theorem witness_DispatchDependsOnOpcodeAlone :
    fetch defaultOpcodeMap (loaded [0x78#8, 0x01#8]) =
        .ready (.inc 0x01#8) ((loaded [0x78#8, 0x01#8]).setIr 0x78#8) ∧
      fetch defaultOpcodeMap (loadedAt 9 [0x78#8, 0x02#8]) =
        .ready (.inc 0x02#8) ((loadedAt 9 [0x78#8, 0x02#8]).setIr 0x78#8) := by decide

/-- Inside the array at its last cell, and outside it at the first address beyond. -/
theorem witness_MemoryAccessesAreBounded :
    255 < (loaded []).mem.size ∧ (loaded []).mem.size ≤ 256 := by decide

theorem witness_StepRunsDecodedInstruction :
    (loaded [0x4D#8, 0x07#8]).canCycle = true ∧
      decode defaultOpcodeMap ((loaded [0x4D#8, 0x07#8]).mem.bytesFrom 0 maxLength) =
        .ok (.psh 0x07#8) := ⟨rfl, rfl⟩

theorem witness_StepWaitsWhenNoCycleMayStart :
    State.reset.en = false ∧ (ran (loaded [0x01#8])).run = .halted := by decide

theorem witness_OpcodeFetchWritesIrOrTraps :
    ((loaded []).setPc 256).canCycle = true ∧
      ((loaded []).setPc 256).mem.size ≤ ((loaded []).setPc 256).pc ∧
      ((loaded []).setPc 255).canCycle = true ∧
      ((loaded []).setPc 255).mem.byte? 255 = some 0x00#8 := by decide

/-- The last operand byte outside memory, and the last operand byte in the last cell. -/
theorem witness_OperandFetchReadsAllOrTraps :
    OpcodeMap.Admissible defaultOpcodeMap ∧ Mnemonic.isReserved .ldi = false ∧
      (loadedAt 254 [0x99#8, 0x00#8]).canCycle = true ∧
      (loadedAt 254 [0x99#8, 0x00#8]).mem.byte? 254 = some (defaultOpcodeMap .ldi) ∧
      1 ≤ 2 ∧ 2 ≤ Mnemonic.arity .ldi ∧ 254 + 2 = (loadedAt 254 [0x99#8, 0x00#8]).mem.size ∧
      (loadedAt 253 [0x99#8]).canCycle = true ∧
      (loadedAt 253 [0x99#8]).mem.byte? 253 = some (defaultOpcodeMap .ldi) ∧
      253 + Mnemonic.arity .ldi < (loadedAt 253 [0x99#8]).mem.size :=
  ⟨defaultOpcodeMap_admissible, by decide⟩

theorem witness_ReservedOpcodesHalt :
    Instr.str ∈ [Instr.cal, .ret, .int, .irt, .str, .pra] ∧
      OpcodeMap.Admissible defaultOpcodeMap ∧ Mnemonic.isReserved .cal = true ∧
      (loadedAt 255 [0x48#8]).canCycle = true ∧
      (loadedAt 255 [0x48#8]).mem.byte? 255 = some (defaultOpcodeMap .cal) :=
  ⟨by decide, defaultOpcodeMap_admissible, by decide, by decide, by decide⟩

theorem witness_InvalidOpcodesHalt :
    (∀ m, defaultOpcodeMap m ≠ 0xC0#8) ∧ (loaded [0xC0#8]).canCycle = true ∧
      (loaded [0xC0#8]).mem.byte? 0 = some 0xC0#8 :=
  ⟨fun m => by cases m <;> decide, by decide, by decide⟩

/-- A fault halt of each kind, at opcode fetch and at a register byte of 8. -/
theorem witness_FaultingCycleCommitsNothing :
    ((loaded []).setPc 256).canCycle = true ∧
      stepWith defaultOpcodeMap ((loaded []).setPc 256) = .next (ran ((loaded []).setPc 256)) ∧
      (ran ((loaded []).setPc 256)).FaultHalted ∧
      (loaded [0x78#8, 0x08#8]).canCycle = true ∧
      stepWith defaultOpcodeMap (loaded [0x78#8, 0x08#8]) = .next (ran (loaded [0x78#8, 0x08#8])) ∧
      (ran (loaded [0x78#8, 0x08#8])).FaultHalted :=
  ⟨by decide, step_ran _, by decide, by decide, step_ran _, by decide⟩

/-- The first four clauses of ChecksRunInFixedOrder: an opcode outside memory, a reserved and an invalid
opcode in the last cell, and an operand outside memory behind an illegal register byte. -/
theorem witness_ChecksRunInFixedOrder_fetch :
    OpcodeMap.Admissible defaultOpcodeMap ∧
      ((loaded []).setPc 256).canCycle = true ∧ (loaded []).mem.size ≤ 256 ∧
      (loadedAt 255 [0x48#8]).mem.byte? 255 = some (defaultOpcodeMap .cal) ∧
      (∀ m, defaultOpcodeMap m ≠ 0xFF#8) ∧
      (loadedAt 255 [0xFF#8]).mem.byte? 255 = some 0xFF#8 ∧
      (loadedAt 254 [0x99#8, 0x08#8]).mem.byte? 254 = some (defaultOpcodeMap .ldi) ∧
      254 + 2 = (loadedAt 254 [0x99#8, 0x08#8]).mem.size :=
  ⟨defaultOpcodeMap_admissible, by decide, by decide, by decide, fun m => by cases m <;> decide,
    by decide, by decide, by decide⟩

/-- Its clauses on decoded instructions: an illegal PSH register whose address is outside too, an LDS index
of 8, and PSH and POP addresses outside a memory of 16 cells. -/
theorem witness_ChecksRunInFixedOrder_execute :
    decode defaultOpcodeMap ((loadedIn 16 [0x4D#8, 0x08#8]).mem.bytesFrom 0 maxLength) =
        .ok (.psh 0x08#8) ∧
      (Instr.psh 0x08#8).regOperands.find? (fun b => decide (8 ≤ b.toNat)) = some 0x08#8 ∧
      decode defaultOpcodeMap ((loaded [0x98#8, 0x00#8, 0x05#8]).mem.bytesFrom 0 maxLength) =
        .ok (.lds (regByte 0) (regByte 5)) ∧
      8 ≤ (((loaded [0x98#8, 0x00#8, 0x05#8]).setReg 5 8).reg 5).toNat ∧
      decode defaultOpcodeMap ((loadedIn 16 [0x4D#8, 0x00#8]).mem.bytesFrom 0 maxLength) =
        .ok (.psh (regByte 0)) ∧
      (loadedIn 16 [0x4D#8, 0x00#8]).mem.size ≤ (pushSp (loadedIn 16 [0x4D#8, 0x00#8])).toNat ∧
      decode defaultOpcodeMap ((loadedIn 16 [0x4C#8, 0x00#8]).mem.bytesFrom 0 maxLength) =
        .ok (.pop (regByte 0)) ∧
      (loadedIn 16 [0x4C#8, 0x00#8]).mem.size ≤ (loadedIn 16 [0x4C#8, 0x00#8]).sp.toNat ∧
      decode defaultOpcodeMap ((loaded [0xAB#8, 0x00#8, 0x02#8]).mem.bytesFrom 0 maxLength) =
        .ok (.div (regByte 0) (regByte 2)) :=
  ⟨rfl, by decide, rfl, by decide, rfl, by decide, rfl, by decide, rfl⟩

theorem witness_IllegalRegisterOperandsHalt :
    8 ≤ (0x08#8).toNat ∧
      (Instr.add 0x07#8 0x08#8).regOperands.find? (fun b => decide (8 ≤ b.toNat)) = some 0x08#8 := by
  decide

theorem witness_HaltedIsLeftOnlyByReset :
    ({ core := ran (loaded [0x01#8]), ldErr := false } : System).core.run = .halted ∧
      Event.host .reset ∉ [Event.cycle, .host .start, .host (.load 0 0x00#8)] := by decide

theorem witness_CauseIsWrittenAtTheHalt :
    stepWith defaultOpcodeMap (loaded [0x01#8]) = .next (ran (loaded [0x01#8])) ∧
      (ran (loaded [0x01#8])).run = .halted :=
  ⟨step_ran _, by decide⟩

theorem witness_ResetMeetsInvariant : 1 ≤ 1 := by decide

theorem witness_EveryStepKeepsInvariant :
    (loaded [0x99#8, 0x00#8, 0x08#8]).Inv ∧
      stepWith defaultOpcodeMap (loaded [0x99#8, 0x00#8, 0x08#8]) =
        .next (ran (loaded [0x99#8, 0x00#8, 0x08#8])) :=
  ⟨witness_invariant, step_ran _⟩

theorem witness_EveryHostOperationKeepsInvariant : (ran ((loaded []).setPc 256)).Inv :=
  witness_invariant_halted

/-- pc and FADDR at PCMAX = 256, and a MEM_SIZE of 255. -/
theorem witness_PcAndFaddrFitTheirWidth :
    (ran ((loaded []).setPc 256)).Inv ∧ (ran ((loaded []).setPc 256)).pc = 256 ∧
      (ran ((loaded []).setPc 256)).faddr = 256 ∧ 255 ≤ 255 :=
  ⟨witness_invariant_halted, by decide, by decide, by decide⟩

theorem witness_ResetGivesStatedValues :
    (State.reset = State.reset ∨ ∃ s, State.reset = hostState .reset s) ∧
      255 < State.reset.mem.size := ⟨.inl rfl, by decide⟩

theorem witness_StepsKeepMemorySizeAndEnable :
    stepWith defaultOpcodeMap (loaded [0x4D#8, 0x00#8]) = .next (ran (loaded [0x4D#8, 0x00#8])) :=
  step_ran _

/-- The hypotheses of OperandFetchTraps, in every instruction's rule: one and two operand bytes. -/
theorem witness_OperandFetchTraps :
    (loadedAt 255 [0x78#8]).canCycle = true ∧
      (loadedAt 255 [0x78#8]).mem.byte? 255 = some 0x78#8 ∧
      255 + 1 = (loadedAt 255 [0x78#8]).mem.size ∧
      (loadedAt 254 [0xA8#8]).canCycle = true ∧
      (loadedAt 254 [0xA8#8]).mem.byte? 254 = some 0xA8#8 ∧
      254 + 2 = (loadedAt 254 [0xA8#8]).mem.size := by decide

/-- The operand hypotheses of every one and two register rule (LdiWritesImmediate, AddWritesSumModulo256,
SubWritesDifferenceModulo256, MulWritesProductModulo256, IncAddsOneModulo256, DecSubtractsOneModulo256,
CmpWritesEqualFlag, JmpGoesToTheRegister, PrnEmitsTheRegister, and the ones named below): 8 is the
first illegal byte and 7 the last legal one. -/
theorem witness_registerRules : 8 ≤ (0x08#8).toNat ∧ (0x07#8).toNat < 8 := by decide

/-- LDS: an index value of 8, and one of 7. -/
theorem witness_LdsCopiesTheIndexedRegister :
    8 ≤ (((loaded []).setReg 5 8).reg 5).toNat ∧
      (((loaded []).setReg 5 7).reg 5).toNat = (7 : Fin 8).val := by decide

/-- DIV: a divisor of 1, and of 0. -/
theorem witness_DivWritesQuotientOrNothing :
    (((loaded []).setReg 1 1).reg 1).toNat ≠ 0 ∧ ((loaded []).reg 1).toNat = 0 := by decide

theorem witness_AluComputesModulo256 : (0x01#8).toNat ≠ 0 ∧ (0x00#8).toNat = 0 := by decide

/-- JEQ and JNE: FL both ways. -/
theorem witness_JeqJumpsWhenEqual :
    ((loaded []).setFl true).fl = true ∧ (loaded []).fl = false := by decide

theorem witness_JneJumpsWhenNotEqual :
    ((loaded []).setFl true).fl = true ∧ (loaded []).fl = false := by decide

/-- PSH: the address in the last cell, and at MEM_SIZE = 247. -/
theorem witness_PshStoresBelowTheStackPointer :
    (pushSp ((loaded []).setReg 7 0)).toNat < ((loaded []).setReg 7 0).mem.size ∧
      (loadedIn 247 []).mem.size ≤ (pushSp (loadedIn 247 [])).toNat := by decide

/-- POP: R7 and another register, the address in the last cell, and at MEM_SIZE = 248. -/
theorem witness_PopLoadsFromTheStackPointer :
    ((loaded []).setReg 7 255).mem.byte? (((loaded []).setReg 7 255).reg 7).toNat = some 0x00#8 ∧
      (loadedIn 248 []).mem.size ≤ ((loadedIn 248 []).reg 7).toNat ∧ (0 : Fin 8) ≠ 7 := by decide

theorem witness_OnlyCmpChangesFlag :
    stepWith defaultOpcodeMap (loaded [0xA0#8, 0x00#8, 0x01#8]) =
        .next (ran (loaded [0xA0#8, 0x00#8, 0x01#8])) ∧
      (ran (loaded [0xA0#8, 0x00#8, 0x01#8])).fl ≠ (loaded [0xA0#8, 0x00#8, 0x01#8]).fl :=
  ⟨step_ran _, by decide⟩

theorem witness_OnlyPrnAppendsToOutput :
    stepWith defaultOpcodeMap (loaded [0x43#8, 0x07#8]) = .next (ran (loaded [0x43#8, 0x07#8])) ∧
      (ran (loaded [0x43#8, 0x07#8])).out ≠ (loaded [0x43#8, 0x07#8]).out :=
  ⟨step_ran _, by decide⟩

theorem witness_OnlyPshChangesMemory :
    stepWith defaultOpcodeMap (loaded [0x4D#8, 0x07#8]) = .next (ran (loaded [0x4D#8, 0x07#8])) ∧
      (ran (loaded [0x4D#8, 0x07#8])).mem.byte? 0xF7 ≠ (loaded [0x4D#8, 0x07#8]).mem.byte? 0xF7 :=
  ⟨step_ran _, by decide⟩

/-- LDS R0,R5 with R5 = 3 reads R5 and R3 alone, so another R1 makes no difference. -/
theorem witness_RegistersReadAndWrittenAsTabled :
    let s := ((loaded []).setReg 5 3).setReg 3 77
    let u := s.setReg 1 9
    u = { s with regs := u.regs } ∧
      (∀ r ∈ readRegs s (.lds (regByte 0) (regByte 5)), u.reg r = s.reg r) ∧
      exec (.lds (regByte 0) (regByte 5)) s = .next ((s.setReg 0 (s.reg 3)).advance 3) ∧
      exec (.lds (regByte 0) (regByte 5)) u = .next ((u.setReg 0 (u.reg 3)).advance 3) ∧
      s.run = .running ∧ ((s.setReg 0 (s.reg 3)).advance 3).run = .running :=
  ⟨by decide, by decide, exec_lds _ 0 5 (by decide), exec_lds _ 0 5 (by decide), rfl, rfl⟩

/-- A stop other than HLT, a jump of each kind, HLT and an instruction that goes on. -/
theorem witness_HandlersCommitThePc :
    (loaded []).run = .running ∧
      exec (.invalid 0xFF#8) (loaded []) = .next ((loaded []).halt .invalidOpcode) ∧
      exec (.jmp (regByte 7)) (loaded []) = .next ((loaded []).setPc 0xF8) ∧
      exec (.jeq (regByte 7)) ((loaded []).setFl true) =
        .next (((loaded []).setFl true).setPc 0xF8) ∧
      exec (.jne (regByte 7)) (loaded []) = .next ((loaded []).setPc 0xF8) ∧
      exec .hlt (loaded []) = .next (((loaded []).advance 1).halt .hlt) ∧
      exec .nop (loaded []) = .next ((loaded []).advance 1) :=
  ⟨rfl, rfl, rfl, rfl, rfl, rfl, rfl⟩

theorem witness_StackNeverTrapsAt256Cells : 256 ≤ (loaded []).mem.size := by decide

theorem witness_PshThenPopRestoresRegisters :
    (pushSp (loaded [])).toNat < (loaded []).mem.size ∧
      (pushSp ((loaded []).setReg 7 0)).toNat < (loaded []).mem.size := by decide

/-- The state after `PSH Ri` in memory. -/
def pushed (s : State) (i : Fin 8) : State :=
  ((s.setMem (s.mem.set (pushSp s).toNat (pushValue s i))).setReg Config.spIndex (pushSp s)).advance 2

/-- P5's stack at 9: PSH at 6 stores at 8, where the next cycle starts; PSH at 5 stores at 8, the operand of
the PRN that starts at 7; PSH R7 and PSH to address 0, the ends of the range; a load at 255. -/
theorem witness_StoredByteIsFetchedNext :
    let s := (loadedAt 6 [0x4D#8, 0x00#8, 0x43#8, 0x00#8]).setReg 7 9
    let s' := (loadedAt 5 [0x4D#8, 0x00#8, 0x43#8, 0x00#8]).setReg 7 9
    let h := (loaded []).setEn false
    let h' := h.setMem (h.mem.set 254 0x43#8)
    (pushSp s).toNat < s.mem.size ∧ exec (.psh (regByte 0)) s = .next (pushed s 0) ∧
      exec (.psh (regByte 7)) s = .next (pushed s 7) ∧
      (pushed s 0).canCycle = true ∧ (pushed s 0).pc = (pushSp s).toNat ∧
      exec (.psh (regByte 0)) s' = .next (pushed s' 0) ∧ (pushed s' 0).canCycle = true ∧
      defaultOpcodeMap.Admissible ∧ Mnemonic.isReserved .prn = false ∧
      (pushed s' 0).mem.byte? (pushed s' 0).pc = some (defaultOpcodeMap .prn) ∧
      1 ≤ Mnemonic.arity .prn ∧ (pushed s' 0).pc + 1 = (pushSp s').toNat ∧
      (pushed s' 0).pc + Mnemonic.arity .prn < (pushed s' 0).mem.size ∧
      (pushSp (s.setReg 7 1)).toNat = 0 ∧
      h.canCycle = false ∧ 255 < h.mem.size ∧
      ((hostState (.load 255 0x01#8) h).setEn true |>.setPc 255).canCycle = true ∧
      h'.canCycle = false ∧
      ((hostState (.load 255 0x00#8) h').setEn true |>.setPc 254).mem.byte? 254 =
        some (defaultOpcodeMap .prn) ∧
      254 + Mnemonic.arity .prn < (hostState (.load 255 0x00#8) h').mem.size :=
  ⟨by decide, exec_psh _ 0 (by decide), exec_psh _ 7 (by decide), by decide, by decide,
    exec_psh _ 0 (by decide), by decide, defaultOpcodeMap_admissible, by decide⟩

/-- Stopped inside memory, stopped outside it, and running. -/
theorem witness_LoadWritesOneCell :
    State.reset.canCycle = false ∧ 255 < State.reset.mem.size ∧ State.reset.mem.size ≤ 256 ∧
      (loaded []).canCycle = true := by decide

/-- A program that just fits a memory of 2 cells, and one that is a byte too long. -/
theorem witness_BootPlacesTheProgram :
    [0x00#8, 0x01#8].length ≤ (State.resetWith 2).mem.size ∧
      (State.resetWith 2).mem.size < [0x00#8, 0x00#8, 0x01#8].length ∧
      1 < (State.resetWith 2).mem.size := by decide

/-- A run of the program of two bytes that halts, with a stop and a start inserted: of its three cycles two
fall while EN = 1. -/
theorem witness_StopsDoNotChangeARun :
    let y : System := { core := loaded [0x00#8, 0x01#8], ldErr := false }
    let es : List Event := [.cycle, .host .stop, .cycle, .host .start, .cycle]
    OnlyRunAndPause es ∧ enabledCycles y.core.en es = 2 ∧
      (y.acts defaultOpcodeMap es).core.run = .halted := by
  unfold OnlyRunAndPause
  decide

/-- Events of each kind; a load while stopped at the last address and the first one beyond it, and one
while a cycle may run. -/
theorem witness_LoadErrorTellsOfTheLastLoad :
    OnlyRunAndPause [.cycle, .host .start, .host .stop] ∧
      State.reset.canCycle = false ∧ ¬ State.reset.mem.size ≤ 255 ∧ State.reset.mem.size ≤ 256 ∧
      (loaded []).canCycle = true := by
  unfold OnlyRunAndPause
  decide

end Sys2Proof.Tests
end

/-! SUPPORT. The invariant of the engine's states: one rule per operation of the state, then every effect of an
instruction, then a step; and the width that pc and FADDR need. -/

namespace Sys2Proof.Machine

section
variable {s t : State} {n : Instr}

/-! ### PCMAX and PCW (spec/00_scope.md R6) -/

theorem le_pcMax_of_le_size {a size : Nat} (h : a ≤ size) : a ≤ pcMax size :=
  h.trans (Nat.le_max_left size 255)

theorem le_pcMax_of_le_255 {a : Nat} (size : Nat) (h : a ≤ 255) : a ≤ pcMax size :=
  h.trans (Nat.le_max_right size 255)

theorem pcMax_of_le_255 {size : Nat} (h : size ≤ 255) : pcMax size = 255 :=
  Nat.max_eq_right h

theorem lt_two_pow_pcWidth {a size : Nat} (h : a ≤ pcMax size) : a < 2 ^ pcWidth size :=
  h.trans_lt Nat.lt_log2_self

/-! ### The invariant after an operation that goes on

Each operation keeps the fields it does not write, so only the fields it writes are argued. -/

theorem State.Inv.setReg (hi : s.Inv) (i : Fin 8) (v : Byte) : (s.setReg i v).Inv :=
  { hi with }

theorem State.Inv.setIr (hi : s.Inv) (b : Byte) : (s.setIr b).Inv :=
  { hi with }

theorem State.Inv.setFl (hi : s.Inv) (b : Bool) : (s.setFl b).Inv :=
  { hi with }

theorem State.Inv.emit (hi : s.Inv) (v : Byte) : (s.emit v).Inv :=
  { hi with }

theorem State.Inv.setPc (hi : s.Inv) {p : Nat} (hp : p ≤ pcMax s.mem.size) : (s.setPc p).Inv :=
  { hi with pcReach := hp }

/-- The next instruction lies at most at MEM_SIZE when this one lies in memory. -/
theorem State.Inv.advance (hi : s.Inv) {k : Nat} (hk : s.pc + k ≤ s.mem.size) : (s.advance k).Inv :=
  hi.setPc (le_pcMax_of_le_size hk)

theorem State.Inv.setMem_set (hi : s.Inv) (a : Nat) (v : Byte) : (s.setMem (s.mem.set a v)).Inv where
  memWf := Memory.set_wf a v hi.memWf
  sizePos := by simpa using hi.sizePos
  pcReach := by simpa using hi.pcReach
  faddrReach := by simpa using hi.faddrReach
  haltedIffCause := hi.haltedIffCause
  faddrOutside := by simpa using hi.faddrOutside
  faddrIdle := hi.faddrIdle
  fregOutside := hi.fregOutside
  fregIdle := hi.fregIdle

/-! ### The invariant after a halt

A running engine has CAUSE none, so its fault registers hold their reset values (spec/10_state.md R31 to R33)
and a halt finds the registers of every other condition as R33 asks. -/

theorem State.Inv.cause_of_running (hi : s.Inv) (hr : s.run = .running) : s.cause = .none := by
  by_contra hc
  have hh := hi.haltedIffCause.2 hc
  rw [hr] at hh
  cases hh

theorem State.Inv.faddr_of_running (hi : s.Inv) (hr : s.run = .running) :
    s.faddr = 0 ∧ s.fkind = .opcodeFetch :=
  hi.faddrIdle (by simp [hi.cause_of_running hr])

theorem State.Inv.freg_of_running (hi : s.Inv) (hr : s.run = .running) : s.freg = 0x00#8 :=
  hi.fregIdle (by simp [hi.cause_of_running hr])

/-- A halt that is no fault halt keeps the idle fault registers. -/
theorem State.Inv.halt (hi : s.Inv) (hr : s.run = .running) {c : HaltCause} (hc : c ≠ .none)
    (ha : c ≠ .addressOutOfRange) (hg : c ≠ .illegalRegister) : (s.halt c).Inv :=
  { hi with
    haltedIffCause := iff_of_true rfl hc
    faddrOutside := fun h => absurd h ha
    faddrIdle := fun _ => hi.faddr_of_running hr
    fregOutside := fun h => absurd h hg
    fregIdle := fun _ => hi.freg_of_running hr }

theorem State.Inv.raise_addressOutOfRange (hi : s.Inv) (hr : s.run = .running) {a : Nat}
    (k : AccessKind) (ha : s.mem.size ≤ a) (ha' : a ≤ pcMax s.mem.size) :
    (s.raise (.addressOutOfRange a k)).Inv :=
  { hi with
    faddrReach := ha'
    haltedIffCause := iff_of_true rfl (by simp)
    faddrOutside := fun _ => ha
    faddrIdle := fun h => absurd rfl h
    fregOutside := fun h => by simp at h
    fregIdle := fun _ => hi.freg_of_running hr }

theorem State.Inv.raise_illegalRegister (hi : s.Inv) (hr : s.run = .running) {b : Byte}
    (hb : 8 ≤ b.toNat) : (s.raise (.illegalRegister b)).Inv :=
  { hi with
    haltedIffCause := iff_of_true rfl (by simp)
    faddrOutside := fun h => by simp at h
    faddrIdle := fun _ => hi.faddr_of_running hr
    fregOutside := fun _ => hb
    fregIdle := fun h => absurd rfl h }

/-! ### The invariant after an instruction and after a step -/

/-- An instruction that lies whole in memory keeps the invariant of a running engine, whichever effect it
has. -/
theorem Effect.keeps_inv (he : Effect n s t) (hi : s.Inv) (hr : s.run = .running)
    (hlen : s.pc + n.length ≤ s.mem.size) : t.Inv := by
  cases he with
  | illegal b hb => exact hi.raise_illegalRegister hr hb
  | outside a k ha ha' => exact hi.raise_addressOutOfRange hr k ha (le_pcMax_of_le_255 _ ha')
  | write i v => exact (hi.setReg i v).advance hlen
  | goOn => exact hi.advance hlen
  | jump p hp => exact hi.setPc (le_pcMax_of_le_255 _ hp)
  | compare b => exact (hi.setFl b).advance hlen
  | print v => exact (hi.emit v).advance hlen
  | push v => exact ((hi.setMem_set _ v).setReg _ _).advance (by simpa using hlen)
  | pop i v w => exact ((hi.setReg i v).setReg _ w).advance hlen
  | hlt => exact (hi.advance hlen).halt hr (by decide) (by decide) (by decide)
  | invalid => exact hi.halt hr (by decide) (by decide) (by decide)
  | reserved => exact hi.halt hr (by decide) (by decide) (by decide)

end

/-- Settles O23, by the four things a step can do: wait, trap at the opcode, trap at an operand, or execute an
instruction that lies whole in memory. -/
theorem everyStepKeepsInvariant : Obligations.EveryStepKeepsInvariant := by
  intro map s t hi h
  rcases stepWith_cases h with ⟨-, rfl⟩ | ⟨hc, hout, rfl⟩ | ⟨op, j, hc, -, -, -, hend, rfl⟩ |
    ⟨op, n, hc, -, hlen, he⟩
  · exact hi
  · exact hi.raise_addressOutOfRange (canCycle_iff.1 hc).1 _ hout hi.pcReach
  · exact (hi.setIr op).raise_addressOutOfRange (canCycle_iff.1 hc).1 _ hend.ge
      (le_pcMax_of_le_size hend.le)
  · exact he.keeps_inv (hi.setIr op) (canCycle_iff.1 hc).1 hlen

/-- Settles O25: PCW is the number of bits of PCMAX, which the invariant makes a bound of pc and FADDR. -/
theorem pcAndFaddrFitTheirWidth : Obligations.PcAndFaddrFitTheirWidth := by
  refine ⟨fun s hi => ⟨lt_two_pow_pcWidth hi.pcReach, lt_two_pow_pcWidth hi.faddrReach⟩,
    by decide, fun size hsize => ?_⟩
  rw [pcWidth, pcMax_of_le_255 hsize]
  decide

end Sys2Proof.Machine

/-! SUPPORT. The state (spec/10_state.md): its reset values, which step writes which piece of it, the registers an
instruction reads and writes, and the pc it commits. -/

namespace Sys2Proof.Machine

section
variable {map : OpcodeMap} {s t u v : State} {n : Instr}

/-! ### Reset (spec/10_state.md R38) -/

theorem State.resetWith_reg (size : Nat) (r : Fin 8) :
    (State.resetWith size).reg r = if r = 7 then 0xF8#8 else 0x00#8 := by
  fin_cases r <;> rfl

theorem State.resetWith_byte? {size a : Nat} (h : a < size) :
    (State.resetWith size).mem.byte? a = some 0x00#8 :=
  if_pos h

/-- Any size of at least 1 will do: the reset state is running, has no cause, and has pc and FADDR at 0. -/
theorem State.resetWith_inv {size : Nat} (h : 1 ≤ size) : (State.resetWith size).Inv where
  memWf := Memory.blank_wf size
  sizePos := h
  pcReach := Nat.zero_le _
  faddrReach := Nat.zero_le _
  haltedIffCause := ⟨nofun, fun hc => absurd rfl hc⟩
  faddrOutside := nofun
  faddrIdle := fun _ => ⟨rfl, rfl⟩
  fregOutside := nofun
  fregIdle := fun _ => rfl

/-! ### RUN and CAUSE (spec/10_state.md R31, R32) -/

theorem HaltCause.code_ne_zero {c : HaltCause} (h : c ≠ .none) : c.code ≠ 0#3 := by
  cases c with
  | none => exact absurd rfl h
  | hlt | invalidOpcode | reservedOpcode | addressOutOfRange | illegalRegister => decide

theorem HaltCause.code_le_five (c : HaltCause) : c.code.toNat ≤ 5 := by
  cases c <;> decide

theorem State.raise_cause_ne_none (s : State) (e : Trap) : (s.raise e).cause ≠ .none := by
  cases e <;> simp

theorem State.raise_cause_ne_hlt (s : State) (e : Trap) : (s.raise e).cause ≠ .hlt := by
  cases e <;> simp

/-- An instruction either leaves RUN and CAUSE or halts with a cause. -/
theorem Effect.run_cause (he : Effect n s t) :
    (t.run = s.run ∧ t.cause = s.cause) ∨ (t.run = .halted ∧ t.cause ≠ .none) := by
  cases he with
  | illegal | outside => exact .inr ⟨State.raise_run _ _, State.raise_cause_ne_none _ _⟩
  | hlt | invalid | reserved => exact .inr ⟨rfl, by simp⟩
  | write | goOn | jump | compare | print | push | pop => exact .inl ⟨rfl, rfl⟩

/-! ### MEM_SIZE and EN (spec/20_memory.md R50; spec/10_state.md R35) -/

theorem Effect.keeps_size_en (he : Effect n s t) : t.mem.size = s.mem.size ∧ t.en = s.en := by
  cases he with
  | illegal | outside => simp
  | push => exact ⟨Memory.set_size _ _ _, rfl⟩
  | write | goOn | jump | compare | print | pop | hlt | invalid | reserved => exact ⟨rfl, rfl⟩

/-! ### FL and OUT (spec/10_state.md R29, R34) -/

/-- A step that executes no instruction leaves FL, OUT and memory; otherwise the byte at pc is the opcode of
the instruction it executes. -/
theorem stepWith_idle_or_executes (h : stepWith map s = .next t) :
    (t.fl = s.fl ∧ t.out = s.out ∧ t.mem = s.mem) ∨
      ∃ op n, s.mem.byte? s.pc = some op ∧ (∀ m, n.mnemonic = some m → map m = op) ∧
        exec n (s.setIr op) = .next t := by
  cases hc : s.canCycle with
  | false =>
    rw [stepWith_wait hc] at h; cases h
    exact .inl ⟨rfl, rfl, rfl⟩
  | true =>
    rcases memRead_cases .opcodeFetch s.pc s with ⟨op, hop, -⟩ | ⟨ha, -⟩
    · rcases stepWith_opcode (map := map) hc hop with
        ⟨j, m, -, -, -, -, hs⟩ | ⟨-, hs⟩ | ⟨m, n, bs, hm, hn, -, -, -, -, hs⟩
      · rw [hs] at h; cases h
        exact .inl ⟨rfl, rfl, rfl⟩
      · exact .inr ⟨op, .invalid op, hop, nofun, hs ▸ h⟩
      · refine .inr ⟨op, n, hop, fun m' hm' => ?_, hs ▸ h⟩
        rw [hn] at hm'; cases hm'
        exact map_of_classify hm
    · rw [stepWith_noOpcode hc ha] at h; cases h
      exact .inl ⟨rfl, rfl, rfl⟩

theorem Effect.fl_eq_or_cmp (he : Effect n s t) : t.fl = s.fl ∨ n.mnemonic = some .cmp := by
  cases he with
  | illegal | outside => exact .inl (State.raise_fl _ _)
  | compare b x y hn => exact .inr (hn ▸ rfl)
  | write | goOn | jump | print | push | pop | hlt | invalid | reserved => exact .inl rfl

theorem Effect.out_eq_or_prn (he : Effect n s t) : t.out = s.out ∨ ∃ r, n = .prn r := by
  cases he with
  | illegal | outside => exact .inl (State.raise_out _ _)
  | print v r hn => exact .inr ⟨r, hn⟩
  | write | goOn | jump | compare | push | pop | hlt | invalid | reserved => exact .inl rfl

theorem exec_prn_out {r : Byte} (h : exec (.prn r) s = .next t) :
    t.out = s.out ∨ ∃ i, t.out = s.out ++ [s.reg i] := by
  rcases regIndex_cases r with ⟨i, rfl, -⟩ | ⟨hr, -⟩
  · rw [exec_prn] at h; cases h
    exact .inr ⟨i, rfl⟩
  · rw [exec_illegal (b := r) (by simp [Instr.regOperands, hr])] at h; cases h
    exact .inl rfl

/-! ### A halted engine under events (spec/60_exceptions.md R191) -/

/-- No event but a reset changes a halted core beyond its memory and EN. -/
theorem System.act_halted {y : System} {e : Event} (h : y.core.run = .halted)
    (he : e ≠ .host .reset) : ∃ m b, (y.act map e).core = (y.core.setMem m).setEn b := by
  have hc : y.core.canCycle = false := by simp [State.canCycle, h]
  cases e with
  | cycle => exact ⟨y.core.mem, y.core.en, next_wait hc⟩
  | host op =>
    cases op with
    | reset => exact absurd rfl he
    | load a b => exact ⟨y.core.mem.set a b, y.core.en, by rw [System.act_load_core, hc]; rfl⟩
    | start => exact ⟨y.core.mem, true, rfl⟩
    | stop => exact ⟨y.core.mem, false, rfl⟩

theorem System.acts_halted {y : System} {es : List Event} (h : y.core.run = .halted)
    (hes : .host .reset ∉ es) : ∃ m b, (y.acts map es).core = (y.core.setMem m).setEn b := by
  induction es generalizing y with
  | nil => exact ⟨y.core.mem, y.core.en, rfl⟩
  | cons e es ih =>
    obtain ⟨he, hes⟩ := not_or.1 (mt List.mem_cons.2 hes)
    obtain ⟨m, b, hact⟩ := System.act_halted (map := map) h (Ne.symm he)
    obtain ⟨m', b', hacts⟩ := ih (y := y.act map e) (by rw [hact]; exact h) hes
    exact ⟨m', b', by rw [System.acts_cons, hacts, hact]; rfl⟩

/-! ### The registers an instruction writes (spec/10_state.md R23) -/

theorem Effect.writes_only (he : Effect n s t) : SameRegsBut (writtenRegs s n) s t := by
  intro r hr
  cases he with
  | illegal | outside => exact State.raise_reg _ _ r
  | write i v hi =>
    rw [hi, List.mem_singleton] at hr
    exact State.setReg_reg_other s v hr
  | push v x hn =>
    subst hn
    exact State.setReg_reg_other _ _ (by simpa [writtenRegs] using hr)
  | pop i v w hi =>
    simp only [hi, List.mem_cons, List.not_mem_nil, or_false, not_or] at hr
    exact (State.setReg_reg_other _ w hr.1).trans (State.setReg_reg_other s v hr.2)
  | goOn | jump | compare | print | hlt | invalid | reserved => rfl

/-! ### States that differ only in registers -/

/-- `u` is `s` but for its registers. -/
def OnlyRegsDiffer (s u : State) : Prop :=
  u = { s with regs := u.regs }

theorem onlyRegsDiffer_iff : OnlyRegsDiffer s u ↔ ∃ ρ, u = { s with regs := ρ } :=
  ⟨fun h => ⟨_, h⟩, by rintro ⟨ρ, rfl⟩; rfl⟩

theorem OnlyRegsDiffer.mem (h : OnlyRegsDiffer s u) : u.mem = s.mem := by
  rw [h]

theorem OnlyRegsDiffer.fl (h : OnlyRegsDiffer s u) : u.fl = s.fl := by
  rw [h]

theorem OnlyRegsDiffer.setReg (h : OnlyRegsDiffer s u) (i j : Fin 8) (x y : Byte) :
    OnlyRegsDiffer (s.setReg i x) (u.setReg j y) := by
  obtain ⟨ρ, rfl⟩ := onlyRegsDiffer_iff.1 h; rfl

theorem OnlyRegsDiffer.setPc (h : OnlyRegsDiffer s u) (p : Nat) :
    OnlyRegsDiffer (s.setPc p) (u.setPc p) := by
  obtain ⟨ρ, rfl⟩ := onlyRegsDiffer_iff.1 h; rfl

theorem OnlyRegsDiffer.advance (h : OnlyRegsDiffer s u) (k : Nat) :
    OnlyRegsDiffer (s.advance k) (u.advance k) := by
  obtain ⟨ρ, rfl⟩ := onlyRegsDiffer_iff.1 h; rfl

theorem OnlyRegsDiffer.setFl (h : OnlyRegsDiffer s u) (b : Bool) :
    OnlyRegsDiffer (s.setFl b) (u.setFl b) := by
  obtain ⟨ρ, rfl⟩ := onlyRegsDiffer_iff.1 h; rfl

theorem OnlyRegsDiffer.emit (h : OnlyRegsDiffer s u) (x : Byte) :
    OnlyRegsDiffer (s.emit x) (u.emit x) := by
  obtain ⟨ρ, rfl⟩ := onlyRegsDiffer_iff.1 h; rfl

theorem OnlyRegsDiffer.setMem (h : OnlyRegsDiffer s u) (m : Memory) :
    OnlyRegsDiffer (s.setMem m) (u.setMem m) := by
  obtain ⟨ρ, rfl⟩ := onlyRegsDiffer_iff.1 h; rfl

theorem OnlyRegsDiffer.halt (h : OnlyRegsDiffer s u) (c : HaltCause) :
    OnlyRegsDiffer (s.halt c) (u.halt c) := by
  obtain ⟨ρ, rfl⟩ := onlyRegsDiffer_iff.1 h; rfl

theorem OnlyRegsDiffer.raise (h : OnlyRegsDiffer s u) (e : Trap) :
    OnlyRegsDiffer (s.raise e) (u.raise e) := by
  obtain ⟨ρ, rfl⟩ := onlyRegsDiffer_iff.1 h
  cases e <;> rfl

/-! ### The registers an instruction reads (spec/10_state.md R23) -/

/-- `n` does the same in `s` and `u`: the results differ only in registers, and in none that `n` writes when
it completes. -/
def ExecAlike (n : Instr) (s u : State) : Prop :=
  ∃ t v, exec n s = .next t ∧ exec n u = .next v ∧ OnlyRegsDiffer t v ∧
    (t.run = .running → ∀ r ∈ writtenRegs s n, v.reg r = t.reg r)

/-- Both states end in the same trap. -/
theorem ExecAlike.trap (h : OnlyRegsDiffer s u) {e : Trap} (hs : exec n s = .next (s.raise e))
    (hu : exec n u = .next (u.raise e)) : ExecAlike n s u :=
  ⟨_, _, hs, hu, h.raise e, fun hr => by simp at hr⟩

/-- Both states complete, and `n` writes no register. -/
theorem ExecAlike.writesNone (hw : writtenRegs s n = []) (hs : exec n s = .next t)
    (hu : exec n u = .next v) (h : OnlyRegsDiffer t v) : ExecAlike n s u :=
  ⟨t, v, hs, hu, h, by simp [hw]⟩

/-- Both states complete by writing the same byte to the one register `n` writes. -/
theorem ExecAlike.writesOne {i : Fin 8} {k : Nat} {x y : Byte} (h : OnlyRegsDiffer s u) (hxy : y = x)
    (hw : writtenRegs s n = [i]) (hs : exec n s = .next ((s.setReg i x).advance k))
    (hu : exec n u = .next ((u.setReg i y).advance k)) : ExecAlike n s u :=
  ⟨_, _, hs, hu, (h.setReg i i x y).advance k, by simp [hw, hxy]⟩

/-- An illegal operand ends both states in the same trap, so one register operand may be taken to exist. -/
theorem ExecAlike.ofOne {x : Byte} (h : OnlyRegsDiffer s u) (hn : n.regOperands = [x])
    (hok : ∀ i, x = regByte i → ExecAlike n s u) : ExecAlike n s u := by
  rcases regIndex_cases x with ⟨i, hi, -⟩ | ⟨hx, -⟩
  · exact hok i hi
  · have hf : n.regOperands.find? (fun b => decide (8 ≤ b.toNat)) = some x := by simp [hn, hx]
    exact .trap h (exec_illegal hf) (exec_illegal hf)

/-- Two register operands, likewise. -/
theorem ExecAlike.ofTwo {x y : Byte} (h : OnlyRegsDiffer s u) (hn : n.regOperands = [x, y])
    (hok : ∀ i j, x = regByte i → y = regByte j → ExecAlike n s u) : ExecAlike n s u := by
  rcases regPair_cases x y with ⟨i, j, hi, hj, -⟩ | ⟨hx, -⟩ | ⟨i, hi, hy, -⟩
  · exact hok i j hi hj
  · have hf : n.regOperands.find? (fun b => decide (8 ≤ b.toNat)) = some x := by simp [hn, hx]
    exact .trap h (exec_illegal hf) (exec_illegal hf)
  · have hf : n.regOperands.find? (fun b => decide (8 ≤ b.toNat)) = some y := by
      simp [hn, hi, hy, Nat.not_le.2 i.isLt]
    exact .trap h (exec_illegal hf) (exec_illegal hf)

@[simp] theorem namedRegs_regByte_pair (i j : Fin 8) :
    namedRegs [regByte i, regByte j] = [i, j] := by
  simp [namedRegs, i.isLt, j.isLt]

/-- An instruction that computes its one register anew from that register. -/
theorem ExecAlike.unary {x : Byte} {f : Byte → Byte} (h : OnlyRegsDiffer s u)
    (hr : ∀ r ∈ namedRegs [x], u.reg r = s.reg r) (hn : n.regOperands = [x])
    (hw : writtenRegs s n = namedRegs [x])
    (hx : ∀ (w : State) i, x = regByte i → exec n w = .next ((w.setReg i (f (w.reg i))).advance 2)) :
    ExecAlike n s u := by
  refine .ofOne h hn fun i hi => .writesOne h ?_ (by simp [hw, hi]) (hx s i hi) (hx u i hi)
  rw [hr i (by simp [hi])]

/-- An instruction that computes its first register anew from both its registers. -/
theorem ExecAlike.binary {x y : Byte} {f : Byte → Byte → Byte} (h : OnlyRegsDiffer s u)
    (hr : ∀ r ∈ namedRegs [x, y], u.reg r = s.reg r) (hn : n.regOperands = [x, y])
    (hw : writtenRegs s n = namedRegs [x])
    (hx : ∀ (w : State) i j, x = regByte i → y = regByte j →
      exec n w = .next ((w.setReg i (f (w.reg i) (w.reg j))).advance 3)) : ExecAlike n s u := by
  refine .ofTwo h hn fun i j hi hj =>
    .writesOne h ?_ (by simp [hw, hi]) (hx s i j hi hj) (hx u i j hi hj)
  rw [hr i (by simp [hi, hj]), hr j (by simp [hi, hj])]

/-- A jump that the flag decides, to the address its register holds. -/
theorem ExecAlike.jump {x : Byte} {taken : Bool → Prop} [DecidablePred taken]
    (h : OnlyRegsDiffer s u) (hr : ∀ r ∈ namedRegs [x], u.reg r = s.reg r)
    (hn : n.regOperands = [x]) (hw : writtenRegs s n = [])
    (hx : ∀ (w : State) i, x = regByte i →
      exec n w = .next (if taken w.fl then w.setPc (w.reg i).toNat else w.advance 2)) :
    ExecAlike n s u := by
  refine .ofOne h hn fun i hi => .writesNone hw (hx s i hi) (hx u i hi) ?_
  rw [h.fl, hr i (by simp [hi])]
  split
  · exact h.setPc _
  · exact h.advance 2

theorem pushSp_congr (h : u.reg 7 = s.reg 7) : pushSp u = pushSp s := by
  simp [pushSp, sp_eq, h]

theorem pushValue_congr {i : Fin 8} (h : u.reg 7 = s.reg 7) (hi : u.reg i = s.reg i) :
    pushValue u i = pushValue s i := by
  simp [pushValue_eq, pushSp_congr h, hi]

/-- The instruction does the same in two states that agree on the registers it reads. -/
theorem exec_alike (h : OnlyRegsDiffer s u) (hr : ∀ r ∈ readRegs s n, u.reg r = s.reg r) :
    ExecAlike n s u := by
  cases n with
  | nop => exact .writesNone rfl (exec_nop s) (exec_nop u) (h.advance 1)
  | hlt => exact .writesNone rfl (exec_hlt s) (exec_hlt u) ((h.advance 1).halt .hlt)
  | ret | irt | pra | cal | int | str =>
    exact .writesNone rfl (exec_reserved s rfl rfl) (exec_reserved u rfl rfl) (h.halt _)
  | invalid b => exact .writesNone rfl (exec_invalid s b) (exec_invalid u b) (h.halt _)
  | prn x =>
    refine .ofOne h rfl fun i hx => ?_
    subst hx
    have hi := hr i (by simp [readRegs])
    exact .writesNone rfl (exec_prn s i) (hi ▸ exec_prn u i) ((h.emit _).advance 2)
  | ldi x imm =>
    refine .ofOne h rfl fun i hx => ?_
    subst hx
    exact .writesOne h rfl (by simp [writtenRegs]) (exec_ldi s i imm) (exec_ldi u i imm)
  | inc x =>
    exact .unary (f := (· + 1)) h hr rfl rfl fun s i hx => hx ▸ exec_inc s i
  | dec x =>
    exact .unary (f := (· - 1)) h hr rfl rfl fun s i hx => hx ▸ exec_dec s i
  | jmp x => exact .jump (taken := fun _ => True) h hr rfl rfl fun s i hx => hx ▸ exec_jmp s i
  | jeq x => exact .jump (taken := (· = true)) h hr rfl rfl fun s i hx => hx ▸ exec_jeq s i
  | jne x => exact .jump (taken := (· = false)) h hr rfl rfl fun s i hx => hx ▸ exec_jne s i
  | cmp x y =>
    refine .ofTwo h rfl fun i j hx hy => ?_
    subst hx hy
    have hi := hr i (by simp [readRegs])
    have hj := hr j (by simp [readRegs])
    exact .writesNone rfl (exec_cmp s i j) (hi ▸ hj ▸ exec_cmp u i j) ((h.setFl _).advance 3)
  | add x y =>
    exact .binary (f := (· + ·)) h hr rfl rfl fun s i j hx hy => hx ▸ hy ▸ exec_add s i j
  | sub x y =>
    exact .binary (f := (· - ·)) h hr rfl rfl fun s i j hx hy => hx ▸ hy ▸ exec_sub s i j
  | mul x y =>
    exact .binary (f := (· * ·)) h hr rfl rfl fun s i j hx hy => hx ▸ hy ▸ exec_mul s i j
  | div x y =>
    refine .ofTwo h rfl fun i j hx hy => ?_
    subst hx hy
    have hi := hr i (by simp [readRegs])
    have hj := hr j (by simp [readRegs])
    by_cases hz : s.reg j = 0x00#8
    · exact .writesNone (by simp [writtenRegs, hz]) (exec_div_zero s i j hz)
        (exec_div_zero u i j (hj.trans hz)) (h.advance 3)
    · exact .writesOne h (by rw [hi, hj]) (by simp [writtenRegs, hz]) (exec_div s i j hz)
        (exec_div u i j (by rwa [hj]))
  | lds x y =>
    refine .ofTwo h rfl fun i j hx hy => ?_
    subst hx hy
    have hj := hr j (by simp [readRegs])
    rcases regIndex_cases (s.reg j) with ⟨k, hk, -⟩ | ⟨hk, -⟩
    · exact .writesOne h (hr k (by simp [readRegs, hk])) (by simp [writtenRegs])
        (exec_lds s i j hk) (exec_lds u i j (hj.trans hk))
    · exact .trap h (exec_lds_index_illegal s i j hk)
        (hj ▸ exec_lds_index_illegal u i j (by rwa [hj]))
  | psh x =>
    refine .ofOne h rfl fun i hx => ?_
    subst hx
    have h7 : u.reg 7 = s.reg 7 := hr 7 (.head _)
    have hsp := pushSp_congr h7
    have hval := pushValue_congr h7 (hr i (by simp [readRegs]))
    by_cases ha : (pushSp s).toNat < s.mem.size
    · refine ⟨_, _, exec_psh s i ha, exec_psh u i (by rwa [hsp, h.mem]), ?_, ?_⟩
      · rw [hsp, hval, h.mem]
        exact ((h.setMem _).setReg _ _ _ _).advance 2
      · simp [writtenRegs, hsp]
    · have ha := Nat.le_of_not_lt ha
      exact .trap h (exec_psh_trap s i ha) (hsp ▸ exec_psh_trap u i (by rwa [hsp, h.mem]))
  | pop x =>
    refine .ofOne h rfl fun i hx => ?_
    subst hx
    have hsp : u.sp = s.sp := hr 7 (.head _)
    rcases memRead_cases .dataRead s.sp.toNat s with ⟨b, hb, -⟩ | ⟨ha, -⟩
    · have hsp' : (u.setReg i b).sp = (s.setReg i b).sp := by
        rw [sp_eq] at hsp
        simp [sp_eq, State.setReg_reg, hsp]
      refine ⟨_, _, exec_pop s i hb, exec_pop u i (by rwa [hsp, h.mem]), ?_, ?_⟩
      · exact ((h.setReg _ _ _ _).setReg _ _ _ _).advance 2
      · simp [writtenRegs, hsp', State.setReg_reg]
    · exact .trap h (exec_pop_trap s i ha) (hsp ▸ exec_pop_trap u i (by rwa [hsp, h.mem]))

theorem mem_namedRegs_cons {bs : List Byte} {r : Fin 8} (b : Byte) (h : r ∈ namedRegs bs) :
    r ∈ namedRegs (b :: bs) := by
  rw [namedRegs]
  split
  · exact .tail _ h
  · exact h

/-- DIV alone asks the state which registers it writes, and it asks a register it reads. -/
theorem writtenRegs_congr (hr : ∀ r ∈ readRegs s n, u.reg r = s.reg r) :
    writtenRegs u n = writtenRegs s n := by
  cases n with
  | div a b =>
    have hb : (namedRegs [b]).map u.reg = (namedRegs [b]).map s.reg :=
      List.map_congr_left fun r hm => hr r (mem_namedRegs_cons a hm)
    rw [writtenRegs, writtenRegs, hb]
  | nop | hlt | prn | pop | psh | jmp | jeq | jne | inc | dec | lds | ldi | cmp | add | sub | mul
  | ret | irt | pra | cal | int | str | invalid => rfl

/-! ### The pc an instruction commits (spec/10_state.md R25) -/

/-- A running engine that stops, and not by HLT, keeps its pc. -/
theorem Effect.pc_of_stop (he : Effect n s t) (hr : s.run = .running) (hh : t.run = .halted)
    (hc : t.cause ≠ .hlt) : t.pc = s.pc := by
  cases he with
  | illegal | outside => exact State.raise_pc _ _
  | invalid | reserved => rfl
  | hlt => exact absurd rfl hc
  | write | goOn | jump | compare | print | push | pop => exact nomatch hr.symm.trans hh

/-- An instruction that completes, and is no jump, goes on behind its last byte. -/
theorem Effect.pc_of_complete (he : Effect n s t) (hc : t.run = .halted → t.cause = .hlt)
    (hj : ∀ r, n ≠ .jmp r ∧ n ≠ .jeq r ∧ n ≠ .jne r) : t.pc = s.pc + n.length := by
  cases he with
  | illegal | outside =>
    exact absurd (hc (State.raise_run _ _)) (State.raise_cause_ne_hlt _ _)
  | invalid | reserved => exact nomatch hc rfl
  | jump p hp r hn =>
    obtain ⟨hjmp, hjeq, hjne⟩ := hj r
    exact (hn.elim hjmp fun hn => hn.elim hjeq hjne).elim
  | write | goOn | compare | print | push | pop | hlt => rfl

theorem exec_jmp_pc {r : Fin 8} (h : exec (.jmp (regByte r)) s = .next t) :
    t.pc = (s.reg r).toNat := by
  rw [exec_jmp] at h; cases h; rfl

theorem exec_jeq_pc {r : Fin 8} (h : exec (.jeq (regByte r)) s = .next t) :
    t.pc = if s.fl then (s.reg r).toNat else s.pc + 2 := by
  rw [exec_jeq] at h; cases h
  split <;> rfl

theorem exec_jne_pc {r : Fin 8} (h : exec (.jne (regByte r)) s = .next t) :
    t.pc = if s.fl then s.pc + 2 else (s.reg r).toNat := by
  rw [exec_jne] at h; cases h
  cases s.fl <;> rfl

end

/-! ### The statements -/

/-- Settles O20, by induction on the events: each leaves all of a halted core but its memory and EN. -/
theorem haltedIsLeftOnlyByReset : Obligations.HaltedIsLeftOnlyByReset := by
  refine ⟨fun map y es hh hes => ?_, fun map y => rfl⟩
  obtain ⟨m, b, hacts⟩ := System.acts_halted (map := map) hh hes
  rw [hacts]
  exact ⟨hh, rfl, rfl, rfl, rfl, rfl, rfl⟩

/-- Settles O21, by the four things a step can do: wait, trap at the opcode, trap at an operand, or execute. -/
theorem causeIsWrittenAtTheHalt : Obligations.CauseIsWrittenAtTheHalt := by
  intro map s t h
  have halts (hc : s.canCycle = true) (hh : t.run = .halted) (hne : t.cause ≠ .none) :
      s.run = .running ∧ t.run = .halted ∧ t.cause.code ≠ 0#3 ∧ t.cause.code.toNat ≤ 5 :=
    ⟨(canCycle_iff.1 hc).1, hh, HaltCause.code_ne_zero hne, HaltCause.code_le_five _⟩
  rcases stepWith_cases h with ⟨-, rfl⟩ | ⟨hc, -, rfl⟩ | ⟨op, j, hc, -, -, -, -, rfl⟩ |
    ⟨op, n, hc, -, -, he⟩
  · exact .inl ⟨rfl, rfl⟩
  · exact .inr (halts hc (State.raise_run _ _) (State.raise_cause_ne_none _ _))
  · exact .inr (halts hc (State.raise_run _ _) (State.raise_cause_ne_none _ _))
  · exact he.run_cause.imp id fun ⟨hh, hne⟩ => halts hc hh hne

/-- Settles O27: no trap writes memory or EN, and no instruction changes MEM_SIZE or EN. -/
theorem stepsKeepMemorySizeAndEnable : Obligations.StepsKeepMemorySizeAndEnable := by
  intro map s t h
  rcases stepWith_cases h with ⟨-, rfl⟩ | ⟨-, -, rfl⟩ | ⟨op, j, -, -, -, -, -, rfl⟩ |
    ⟨op, n, -, -, -, he⟩
  · exact ⟨rfl, rfl⟩
  · exact ⟨rfl, rfl⟩
  · exact ⟨rfl, rfl⟩
  · exact he.keeps_size_en

/-- Settles O46: the step executes an instruction, which is CMP, and its opcode is the byte at pc. -/
theorem onlyCmpChangesFlag : Obligations.OnlyCmpChangesFlag := by
  intro map s t h hne
  rcases stepWith_idle_or_executes h with ⟨hfl, -⟩ | ⟨op, n, hop, hm, hx⟩
  · exact absurd hfl hne
  · rcases (effect_of_exec hx).fl_eq_or_cmp with hfl | hn
    · exact absurd hfl hne
    · rw [hop, hm .cmp hn]

/-- Settles O47: the step leaves OUT, or the instruction it executes is PRN, and its opcode is the byte at pc. -/
theorem onlyPrnAppendsToOutput : Obligations.OnlyPrnAppendsToOutput := by
  intro map s t h
  rcases stepWith_idle_or_executes h with ⟨-, hout, -⟩ | ⟨op, n, hop, hm, hx⟩
  · exact .inl hout
  · rcases (effect_of_exec hx).out_eq_or_prn with hout | ⟨r, rfl⟩
    · exact .inl hout
    · exact (exec_prn_out hx).imp id fun hout => ⟨by rw [hop, hm .prn rfl], hout⟩

/-- Settles O49: the frame is each effect's, and the noninterference is `exec_alike`. -/
theorem registersReadAndWrittenAsTabled : Obligations.RegistersReadAndWrittenAsTabled := by
  refine ⟨fun i s t h => (effect_of_exec h).writes_only, fun i s u t v hu hr ht hv => ?_⟩
  obtain ⟨t', v', ht', hv', hd, hw⟩ := exec_alike hu hr
  rw [ht'] at ht; cases ht
  rw [hv'] at hv; cases hv
  exact ⟨hd, writtenRegs_congr hr, fun _ => hw⟩

/-- Settles O50: a stop keeps pc, the jumps' equations give their targets, and every other effect advances by
the instruction's length. -/
theorem handlersCommitThePc : Obligations.HandlersCommitThePc := by
  intro i s t hr h
  have he := effect_of_exec h
  refine ⟨he.pc_of_stop hr, fun hc => ⟨?_, ?_, ?_, he.pc_of_complete hc⟩⟩
  · rintro r rfl; exact exec_jmp_pc h
  · rintro r rfl; exact exec_jeq_pc h
  · rintro r rfl; exact exec_jne_pc h

/-- Settles O22: the default MEM_SIZE is one of the sizes of at least 1. -/
theorem resetMeetsInvariant : Obligations.ResetMeetsInvariant :=
  ⟨State.resetWith_inv (by decide), fun _ => State.resetWith_inv⟩

/-- Settles O26: both resets are `State.resetWith` at some MEM_SIZE. -/
theorem resetGivesStatedValues : Obligations.ResetGivesStatedValues := by
  refine ⟨rfl, fun t ht => ?_⟩
  obtain ⟨size, rfl⟩ : ∃ size, t = State.resetWith size := by
    rcases ht with rfl | ⟨s, rfl⟩
    · exact ⟨Config.memSize, rfl⟩
    · exact ⟨s.mem.size, rfl⟩
  exact ⟨State.resetWith_reg size, rfl, rfl, rfl, rfl, rfl, rfl, rfl, rfl, rfl, rfl, rfl,
    fun _ => State.resetWith_byte?⟩

end Sys2Proof.Machine

/-! SUPPORT. Memory (spec/20_memory.md): what an access inside or outside the array does, which step writes a
cell, and that a stored byte is what a later cycle fetches. -/

namespace Sys2Proof.Machine

section
variable {map : OpcodeMap} {s t u : State} {n : Instr} {a : Nat} {b : Byte}

/-! ### An access inside and outside the array (spec/20_memory.md R51, R52) -/

/-- One write changes at most the cell it names. -/
theorem State.setMem_set_sameMemoryBut (s : State) (a : Nat) (v : Byte) :
    SameMemoryBut [a] s (s.setMem (s.mem.set a v)) :=
  ⟨Memory.set_size _ _ _, fun _ hb =>
    Memory.byte?_set_other _ _ (List.ne_of_not_mem_cons hb)⟩

/-- Raising AddressOutOfRange halts with the access's address and kind, and changes nothing else. -/
theorem State.raise_addressHalt (s : State) (a : Nat) (kind : AccessKind) :
    AddressHalt a kind s (s.raise (.addressOutOfRange a kind)) :=
  ⟨rfl, rfl, rfl, rfl, rfl, fun _ _ => rfl, rfl, rfl, rfl, ⟨rfl, fun _ _ => rfl⟩, rfl, rfl⟩

/-! ### The instruction that writes memory (spec/20_memory.md R53) -/

/-- Every instruction leaves memory, except that PSH writes the cell below the stack pointer. -/
theorem Effect.mem_eq_or_psh (he : Effect n s t) :
    t.mem = s.mem ∨ n.mnemonic = some .psh ∧ ∃ v, t.mem = s.mem.set (pushSp s).toNat v := by
  cases he with
  | illegal | outside => exact .inl (State.raise_mem _ _)
  | push v r hn => exact .inr ⟨hn ▸ rfl, v, rfl⟩
  | write | goOn | jump | compare | print | pop | hlt | invalid | reserved => exact .inl rfl

theorem exec_psh_byte? {i : Fin 8} (ha : (pushSp s).toNat < s.mem.size)
    (h : exec (.psh (regByte i)) s = .next t) :
    t.mem.byte? (pushSp s).toNat = some (if i = 7 then pushSp s else s.reg i) := by
  rw [exec_psh s i ha] at h; cases h
  exact Memory.byte?_set_same _ ha

theorem hostState_load_byte? (hc : s.canCycle = false) (ha : a < s.mem.size) :
    (hostState (.load a b) s).mem.byte? a = some b := by
  simp [hostState, hc, ha]

/-! ### What a cycle fetches (spec/20_memory.md R64) -/

/-- IR is the fetch's to write: no instruction changes it. -/
theorem Effect.keeps_ir (he : Effect n s t) : t.ir = s.ir := by
  cases he with
  | illegal | outside => exact State.raise_ir _ _
  | write | goOn | jump | compare | print | push | pop | hlt | invalid | reserved => rfl

/-- A cycle leaves the byte at pc in IR, whether its operand fetch traps or it executes an instruction. -/
theorem stepWith_ir_of_opcode (hc : u.canCycle = true) (hop : u.mem.byte? u.pc = some b) :
    ∃ v, stepWith map u = .next v ∧ v.ir = b := by
  have executed (i : Instr) (hs : stepWith map u = exec i (u.setIr b)) :
      ∃ v, stepWith map u = .next v ∧ v.ir = b := by
    obtain ⟨v, hv, he⟩ := exec_effect i (u.setIr b)
    exact ⟨v, hs.trans hv, he.keeps_ir⟩
  rcases stepWith_opcode (map := map) hc hop with
    ⟨j, m, -, -, -, -, hs⟩ | ⟨-, hs⟩ | ⟨m, i, bs, -, -, -, -, -, -, hs⟩
  · exact ⟨_, hs, State.raise_ir _ _⟩
  · exact executed _ hs
  · exact executed _ hs

/-- A cycle of the mnemonic's opcode, all of whose operand bytes exist, executes an instruction of that
mnemonic whose encoding is the bytes of memory from pc on. -/
theorem stepWith_reads_encoding {m : Mnemonic} (hmap : map.Admissible) (hc : u.canCycle = true)
    (hop : u.mem.byte? u.pc = some (map m)) (hend : u.pc + m.arity < u.mem.size) :
    ∃ i, i.mnemonic = some m ∧ stepWith map u = exec i (u.setIr (map m)) ∧
      ∀ j, j ≤ m.arity → (encode map i)[j]? = u.mem.byte? (u.pc + j) := by
  have hcl := classify_map hmap m
  rcases stepWith_opcode (map := map) hc hop with
    ⟨j, m', hm, -, hj, hsize, -⟩ | ⟨hm, -⟩ | ⟨m', i, bs, hm, hi, -, henc, hlen, hbs, hs⟩
  · rw [hcl] at hm; cases hm
    omega
  · rw [hcl] at hm; cases hm
  · rw [hcl] at hm; cases hm
    refine ⟨i, hi, hs, fun j hj => ?_⟩
    rw [henc]
    cases j with
    | zero => exact hop.symm
    | succ k =>
      have hk : k < bs.length := hlen ▸ hj
      rw [List.getElem?_cons_succ, List.getElem?_eq_getElem hk, hbs k hk]

/-- A byte that an address holds is what a cycle fetches there. -/
theorem fetchSees_of_byte? (hc : u.canCycle = true) (hb : u.mem.byte? a = some b) :
    FetchSees map a b u := by
  constructor
  · rintro rfl
    exact stepWith_ir_of_opcode hc hb
  · rintro m j hmap - hop - hj rfl hend
    obtain ⟨i, hi, hs, henc⟩ := stepWith_reads_encoding hmap hc hop hend
    exact ⟨i, hi, (henc j hj).trans hb, hs⟩

end

/-! ### The statements -/

/-- Settles O48: the step executes an instruction, which is PSH, and its opcode is the byte at pc. -/
theorem onlyPshChangesMemory : Obligations.OnlyPshChangesMemory := by
  intro map s t a h hne
  rcases stepWith_idle_or_executes h with ⟨-, -, hmem⟩ | ⟨op, n, hop, hm, hx⟩
  · exact absurd (by rw [hmem]) hne
  · rcases (effect_of_exec hx).mem_eq_or_psh with hmem | ⟨hn, v, hmem⟩
    · exact absurd (by rw [hmem]; rfl) hne
    · refine ⟨by rw [hop, hm .psh hn], ?_⟩
      by_contra ha
      exact hne (by rw [hmem]; exact Memory.byte?_set_other _ _ ha)

/-- Settles O51: the address of each is a byte, and every byte is an address of the array. -/
theorem stackNeverTrapsAt256Cells : Obligations.StackNeverTrapsAt256Cells := by
  intro i s hsize
  have inside (b : Byte) : b.toNat < s.mem.size := b.isLt.trans_le hsize
  obtain ⟨v, hv⟩ := Memory.byte?_of_lt (inside s.sp)
  exact ⟨⟨_, exec_psh s i (inside _), rfl, rfl, rfl, rfl, rfl, rfl, rfl⟩,
    ⟨_, exec_pop s i hv, rfl, rfl, rfl, rfl, rfl, rfl, rfl⟩⟩

/-- Settles O53: the write leaves the byte at its address, and a cycle fetches what the address holds. -/
theorem storedByteIsFetchedNext : Obligations.StoredByteIsFetchedNext :=
  ⟨fun _ _ _ _ _ ha h hc hb => fetchSees_of_byte? hc (hb.trans (exec_psh_byte? ha h)),
    fun _ _ _ _ _ hs ha hc hb => fetchSees_of_byte? hc (hb.trans (hostState_load_byte? hs ha))⟩

/-- Settles O9, by which side of MEM_SIZE the address lies on. -/
theorem memoryAccessesAreBounded : Obligations.MemoryAccessesAreBounded := by
  refine fun kind a v s => ⟨fun ha => ?_, fun ha => ?_⟩
  · obtain ⟨b, hb⟩ := Memory.byte?_of_lt ha
    exact ⟨⟨b, hb, memRead_ok hb⟩, _, memWrite_ok v ha, rfl, Memory.byte?_set_same v ha,
      s.setMem_set_sameMemoryBut a v⟩
  · exact ⟨memRead_trap ha, s.raise_addressHalt a kind, memWrite_trap v ha,
      s.raise_addressHalt a .dataWrite⟩

end Sys2Proof.Machine

/-! SUPPORT. Encoding and the cycle (spec/30_encoding.md): what decodes, how long its encoding is, which bytes are
no opcode, and what a cycle makes of the bytes it fetches. -/

namespace Sys2Proof

section
variable {map : OpcodeMap} {op b : Byte} {rest : List Byte} {i : Instr} {m : Mnemonic}

/-! ### The dispatch table (spec/30_encoding.md R71, R78) -/

theorem classify_eq_some_iff (h : map.Admissible) : classify map b = some m ↔ map m = b :=
  ⟨map_of_classify, fun hb => hb ▸ classify_map h m⟩

theorem classify_eq_none_iff : classify map b = none ↔ ∀ m, map m ≠ b := by
  rw [classify_eq_none, WellFormed.isInvalid, List.all_eq_true]
  simp [Mnemonic.mem_all]

/-- No opcode of an admissible map has 0b11 in its bits 7:6. -/
theorem classify_eq_none_of_topBits (h : map.Admissible) (hb : b.extractLsb 7 6 = 0b11#2) :
    classify map b = none :=
  classify_eq_none_iff.2 fun m hm => h.noTop3 m (hm ▸ hb)

theorem topBits_eq_3_of_le (h : 0xC0 ≤ b.toNat) : b.extractLsb 7 6 = 0b11#2 := by
  apply BitVec.eq_of_toNat_eq
  have hlt := b.isLt
  simp only [BitVec.extractLsb_toNat, BitVec.toNat_ofNat, Nat.shiftRight_eq_div_pow]
  omega

/-- The byte values that are opcodes are those of the mnemonics, each once. -/
theorem opcodeValues_perm (h : map.Admissible) :
    ((List.range 256).filter fun n => (classify map (BitVec.ofNat 8 n)).isSome).Perm
      (Mnemonic.all.map fun m => (map m).toNat) := by
  have hnodup : (Mnemonic.all.map fun m => (map m).toNat).Nodup :=
    List.Nodup.map (fun m n hmn => h.injective m n (BitVec.eq_of_toNat_eq hmn)) (by decide)
  refine (List.perm_ext_iff_of_nodup (List.nodup_range.filter _) hnodup).2 fun n => ?_
  simp only [List.mem_filter, List.mem_range, List.mem_map, Option.isSome_iff_exists,
    classify_eq_some_iff h]
  constructor
  · rintro ⟨hn, m, hm⟩
    exact ⟨m, m.mem_all, by rw [hm, BitVec.toNat_ofNat, Nat.mod_eq_of_lt hn]⟩
  · rintro ⟨m, -, rfl⟩
    exact ⟨(map m).isLt, m, by simp⟩

/-- The 23 opcodes leave 233 of the 256 bytes. -/
theorem invalidBytes_length (h : map.Admissible) :
    ((List.range 256).filter fun n => (classify map (BitVec.ofNat 8 n)).isNone).length = 233 := by
  have hsome := (opcodeValues_perm h).length_eq
  have hsplit := (List.range 256).length_eq_length_filter_add
    fun n => (classify map (BitVec.ofNat 8 n)).isSome
  simp only [Option.not_isSome, List.length_range, hsome] at hsplit
  exact Nat.add_left_cancel (n := 23) hsplit.symm

/-! ### The encoder (spec/30_encoding.md R70, R72) -/

theorem encode_length (map : OpcodeMap) (h : i.mnemonic = some m) :
    (encode map i).length = m.arity + 1 := by
  cases i <;> cases h <;> rfl

theorem encodable_of_mnemonic (map : OpcodeMap) (h : i.mnemonic = some m) :
    WellFormed.encodable map i = true := by
  cases i <;> cases h <;> rfl

/-! ### The decoder (spec/30_encoding.md R72, R78) -/

theorem decode_of_classify_none (h : classify map op = none) :
    decode map (op :: rest) = .ok (.invalid op) := by
  rw [decode, decodeFrom, h]

theorem decode_of_classify_some (h : classify map op = some m) :
    decode map (op :: rest) = assemble m (listOperand rest) := by
  rw [decode, decodeFrom, h]

/-- What decodes is the invalid opcode, or an instruction of the opcode's mnemonic whose operand bytes are the
next ones of the string. -/
theorem decode_cases (h : decode map (op :: rest) = .ok i) :
    (classify map op = none ∧ i = .invalid op) ∨
      ∃ m bs, classify map op = some m ∧ i.mnemonic = some m ∧ encode map i = op :: bs ∧
        bs <+: rest := by
  cases hc : classify map op with
  | none =>
    rw [decode_of_classify_none hc] at h; cases h
    exact .inl ⟨rfl, rfl⟩
  | some m =>
    rw [decode_of_classify_some hc] at h
    obtain ⟨hi, -, bs, he, -, hbs⟩ := assemble_ok map h
    rw [map_of_classify hc] at he
    refine .inr ⟨m, bs, rfl, hi, he, List.prefix_iff_getElem?.2 fun j hj => ?_⟩
    exact listOperand_ok.1 (hbs j hj)

/-- Decoding the encoding of an instruction of some mnemonic: the opcode classifies as the mnemonic, and the
operand bytes are the next ones of the string. -/
theorem decode_encode_append (h : map.Admissible) (hi : i.mnemonic = some m) (rest : List Byte) :
    decode map (encode map i ++ rest) = .ok i := by
  obtain ⟨bs, he⟩ := encode_head map hi
  rw [he, List.cons_append, decode_of_classify_some (classify_map h m)]
  refine assemble_encode map hi fun j b hj => listOperand_ok.2 ?_
  rw [he, List.getElem?_cons_succ] at hj
  rw [List.getElem?_append_left (List.getElem?_eq_some_iff.1 hj).1, hj]

end

end Sys2Proof

namespace Sys2Proof.Machine

section
variable {map : OpcodeMap} {s t : State} {i : Instr} {m : Mnemonic} {a : Nat}

/-! ### Fetch (spec/30_encoding.md R83, R87) -/

/-- A fetched instruction is of the mnemonic that the byte in IR classifies as. -/
theorem mnemonic_of_fetch (h : fetch map s = .ready i t) : i.mnemonic = classify map t.ir := by
  have hf := fetch_effect map s
  rw [h] at hf
  cases hf with
  | invalid op _ hm => exact hm.symm
  | ready op m _ bs _ hm hi => exact hi.trans hm.symm

/-- Bytes that memory holds at ascending addresses are the ones read there. -/
theorem Memory.bytesFrom_eq {mem : Memory} {bs : List Byte}
    (h : ∀ j, j < bs.length → bs[j]? = mem.byte? (a + j)) : mem.bytesFrom a bs.length = bs := by
  induction bs generalizing a with
  | nil => rfl
  | cons b bs ih =>
    have hb : mem.byte? a = some b := (h 0 (Nat.succ_pos _)).symm
    have htail : mem.bytesFrom (a + 1) bs.length = bs := ih fun j hj => by
      rw [Nat.add_assoc, Nat.add_comm 1 j, ← h (j + 1) (Nat.succ_lt_succ hj),
        List.getElem?_cons_succ]
    simp only [List.length_cons, Memory.bytesFrom, hb, htail]

/-- A cycle of the mnemonic's opcode traps at the operand byte that lies at MEM_SIZE. -/
theorem stepWith_missingOperand {j : Nat} (hmap : map.Admissible) (hc : s.canCycle = true)
    (hop : s.mem.byte? s.pc = some (map m)) (h1 : 1 ≤ j) (hj : j ≤ m.arity)
    (hend : s.pc + j = s.mem.size) :
    stepWith map s =
      .next ((s.setIr (map m)).raise (.addressOutOfRange (s.pc + j) .operandFetch)) := by
  have hcl := classify_map hmap m
  rcases stepWith_opcode (map := map) hc hop with
    ⟨k, -, -, -, -, hk, hs⟩ | ⟨hm, -⟩ | ⟨m', n, bs, hm, -, -, -, hlen, hbs, -⟩
  · rw [hs, hk, hend]
  · rw [hcl] at hm; cases hm
  · rw [hcl] at hm; cases hm
    have hlt := Memory.lt_of_byte?_eq_some (hbs (j - 1) (by omega))
    omega

/-! ### The end of a faulting cycle (spec/30_encoding.md R74, R89) -/

/-- Raising IllegalRegister halts with the register byte, and changes nothing else. -/
theorem State.raise_illegalHalt (s : State) (b : Byte) :
    IllegalHalt b s (s.raise (.illegalRegister b)) :=
  ⟨rfl, rfl, rfl, rfl, rfl, fun _ _ => rfl, rfl, rfl, rfl, ⟨rfl, fun _ _ => rfl⟩, rfl, rfl⟩

/-- An instruction that ends a running engine in a fault halt raised a trap and did nothing else. -/
theorem Effect.of_faultHalted (he : Effect i s t) (hr : s.run = .running) (hf : t.FaultHalted) :
    (∃ a kind, s.mem.size ≤ a ∧ AddressHalt a kind s t) ∨
      ∃ b : Byte, 8 ≤ b.toNat ∧ IllegalHalt b s t := by
  obtain ⟨hh, hcause⟩ := hf
  cases he with
  | outside a kind ha => exact .inl ⟨a, kind, ha, s.raise_addressHalt a kind⟩
  | illegal b hb => exact .inr ⟨b, hb, s.raise_illegalHalt b⟩
  | hlt | invalid | reserved => exact hcause.elim nofun nofun
  | write | goOn | jump | compare | print | push | pop => exact nomatch hr.symm.trans hh

theorem regIndex_eq_ok_iff {b : Byte} {r : Fin 8} : regIndex b = .ok r ↔ b.toNat = r.val := by
  rcases regIndex_cases b with ⟨k, rfl, hk⟩ | ⟨hb, hk⟩
  · rw [hk, regByte_toNat, Except.ok.injEq, Fin.ext_iff]
  · have hne : b.toNat ≠ r.val := by have := r.isLt; omega
    simp [hk, hne]

end

/-! ### The statements -/

/-- Settles O3: the opcode of an instruction classifies as its mnemonic, and an invalid byte as none. -/
theorem decodingAnEncodingGivesItBack : Obligations.DecodingAnEncodingGivesItBack := by
  intro map i rest hmap henc
  rcases i.mnemonic_cases with ⟨m, hm⟩ | ⟨b, rfl⟩
  · exact decode_encode_append hmap hm rest
  · exact decode_of_classify_none (classify_eq_none.2 henc)

/-- Settles O4, by whether the string's first byte is an opcode. -/
theorem decodedBytesAreTheEncoding : Obligations.DecodedBytesAreTheEncoding := by
  intro map bytes i h
  cases bytes with
  | nil => cases h
  | cons op rest =>
    rcases decode_cases h with ⟨hc, rfl⟩ | ⟨m, bs, -, hi, he, rest', rfl⟩
    · exact ⟨classify_eq_none.1 hc, rest, rfl⟩
    · exact ⟨encodable_of_mnemonic map hi, rest', by rw [he]; rfl⟩

/-- Settles O5: the 23 mnemonics have 23 different bytes, and the bytes from 0xC0 on have 0b11 in bits 7:6. -/
theorem opcodeBytesFallIntoThreeClasses : Obligations.OpcodeBytesFallIntoThreeClasses :=
  ⟨fun _ _ hmap => ⟨fun _ => classify_eq_some_iff hmap, classify_eq_none_iff⟩,
    invalidBytes_length defaultOpcodeMap_admissible,
    fun _ hb => classify_eq_none_of_topBits defaultOpcodeMap_admissible (topBits_eq_3_of_le hb)⟩

/-- Settles O6: such a byte is no opcode of the map. -/
theorem topBits11AreInvalid : Obligations.TopBits11AreInvalid :=
  fun _ _ _ hmap hb => decode_of_classify_none (classify_eq_none_of_topBits hmap hb)

/-- Settles O7: both sides are one and the mnemonic's arity. -/
theorem lengthIsOnePlusTopBits : Obligations.LengthIsOnePlusTopBits := by
  intro map op rest i m hmap h hi hres
  rcases decode_cases h with ⟨-, rfl⟩ | ⟨m', -, hc, hi', -, -⟩
  · cases hi
  · rw [hi] at hi'; cases hi'
    rw [encode_length map hi, ← map_of_classify hc, hmap.topBits m hres, Nat.add_comm]

/-- Settles O8: each instruction is of the mnemonic that its IR classifies as. -/
theorem dispatchDependsOnOpcodeAlone : Obligations.DispatchDependsOnOpcodeAlone := by
  intro map s u s' u' i j hs hu hir
  rw [mnemonic_of_fetch hs, mnemonic_of_fetch hu, hir]

/-- Settles O12, by which side of MEM_SIZE the pc lies on. -/
theorem opcodeFetchWritesIrOrTraps : Obligations.OpcodeFetchWritesIrOrTraps :=
  fun _ s hc => ⟨fun ha => ⟨_, stepWith_noOpcode hc ha, s.raise_addressHalt s.pc .opcodeFetch⟩,
    fun _ hop => stepWith_ir_of_opcode hc hop⟩

/-- Settles O13: an operand byte at MEM_SIZE ends the fetch, and the bytes fetched otherwise are those of
memory. -/
theorem operandFetchReadsAllOrTraps : Obligations.OperandFetchReadsAllOrTraps := by
  refine fun map s m hmap _ hc hop => ⟨fun j h1 hj hend => ?_, fun hend => ?_⟩
  · exact ⟨_, stepWith_missingOperand hmap hc hop h1 hj hend, State.raise_addressHalt _ _ _⟩
  · obtain ⟨i, hi, hs, hbytes⟩ := stepWith_reads_encoding hmap hc hop hend
    have hlen := encode_length map hi
    refine ⟨i, hi, ?_, hs⟩
    rw [← hlen]
    exact (Memory.bytesFrom_eq fun j hj => hbytes j (by omega)).symm

/-- Settles O16, by the four things a step can do: wait, trap at the opcode, trap at an operand, or execute. -/
theorem faultingCycleCommitsNothing : Obligations.FaultingCycleCommitsNothing := by
  intro map s t hc h hf
  refine ⟨_, rfl, ?_⟩
  rcases stepWith_cases h with ⟨hw, -⟩ | ⟨-, ha, rfl⟩ | ⟨op, j, -, hop, -, -, hend, rfl⟩ |
    ⟨op, n, -, hop, -, he⟩
  · rw [hc] at hw; cases hw
  · rw [Memory.byte?_eq_none.2 ha]
    exact .inl ⟨s.pc, .opcodeFetch, ha, s.raise_addressHalt _ _⟩
  · rw [hop]
    exact .inl ⟨s.pc + j, .operandFetch, hend.ge, State.raise_addressHalt _ _ _⟩
  · rw [hop]
    exact he.of_faultHalted (canCycle_iff.1 hc).1 hf

/-- Settles O18: the check of one byte, and the first illegal byte of an instruction's operands. -/
theorem illegalRegisterOperandsHalt : Obligations.IllegalRegisterOperandsHalt :=
  ⟨fun _ _ => regIndex_eq_ok_iff, fun _ => regIndex_illegal,
    fun _ s b hb => ⟨_, exec_illegal hb, s.raise_illegalHalt b⟩⟩

/-- Settles O1, by evaluating the table. -/
theorem defaultMapAssignsTabledBytes : Obligations.DefaultMapAssignsTabledBytes := by
  unfold Obligations.DefaultMapAssignsTabledBytes
  decide

/-- Settles O2, by running the decoder on the six words. -/
theorem writtenWordsDecode : Obligations.WrittenWordsDecode :=
  ⟨rfl, rfl, rfl, rfl, rfl, rfl⟩

/-- Settles O10: the bytes read from pc on are those that the cycle fetches. -/
theorem stepRunsDecodedInstruction : Obligations.StepRunsDecodedInstruction :=
  ⟨fun _ _ _ hc hd => stepWith_of_decode hc (fun _ _ => byte?_of_bytesFrom) hd, fun _ => rfl⟩

/-- Settles O11: no cycle may start in such a state. -/
theorem stepWaitsWhenNoCycleMayStart : Obligations.StepWaitsWhenNoCycleMayStart := by
  intro map s h
  apply stepWith_wait
  rcases h with hen | hrun
  · simp [State.canCycle, hen]
  · simp [State.canCycle, hrun]

/-- Settles O19: the next state is `next`. -/
theorem everyStepAnswersANextState : Obligations.EveryStepAnswersANextState :=
  fun map s => ⟨next map s, stepWith_eq_next map s⟩

end Sys2Proof.Machine

/-! SUPPORT. The loads (spec/40_load.md), and what each rule of an instruction with two operand bytes has in common:
the trap of its operand fetch, the halt on a register byte of 8 or more, and the frame of a register write. -/

namespace Sys2Proof.Machine

section
variable {n : Instr} {a b : Byte} {rest : List Byte}

/-! ### The shape of an instruction's rule (spec/30_encoding.md R74, R87) -/

/-- The next step of an opcode traps at the operand byte that lies at MEM_SIZE. -/
theorem operandFetchTraps (m : Mnemonic) : OperandFetchTraps (defaultOpcodeMap m) m.arity :=
  fun _ _ hc hop h1 hj hend =>
    ⟨_, stepWith_missingOperand defaultOpcodeMap_admissible hc hop h1 hj hend,
      State.raise_addressHalt _ _ _⟩

theorem exec_firstRegister_illegal (s : State) (hn : n.regOperands = a :: rest) (ha : 8 ≤ a.toNat) :
    ∃ t, exec n s = .next t ∧ IllegalHalt a s t :=
  ⟨_, exec_illegal (by simp [hn, ha]), s.raise_illegalHalt a⟩

theorem exec_secondRegister_illegal (s : State) (hn : n.regOperands = a :: b :: rest)
    (ha : a.toNat < 8) (hb : 8 ≤ b.toNat) : ∃ t, exec n s = .next t ∧ IllegalHalt b s t :=
  ⟨_, exec_illegal (by simp [hn, hb, Nat.not_le.2 ha]), s.raise_illegalHalt b⟩

/-- Of the rule of an instruction with two register operands only the effect is the instruction's own. -/
theorem TwoRegisterRule.ofEffect {m : Mnemonic} {build : Byte → Byte → Instr}
    {done : Fin 8 → Fin 8 → State → State → Prop} (hm : m.arity = 2)
    (henc : ∀ a b, encode defaultOpcodeMap (build a b) = [defaultOpcodeMap m, a, b])
    (hregs : ∀ a b, (build a b).regOperands = [a, b])
    (heff : ∀ i j s, ∃ t, exec (build (regByte i) (regByte j)) s = .next t ∧ done i j s t) :
    TwoRegisterRule (defaultOpcodeMap m) build done :=
  ⟨henc, hm ▸ operandFetchTraps m, fun a b s => exec_firstRegister_illegal s (hregs a b),
    fun a b s => exec_secondRegister_illegal s (hregs a b), heff⟩

/-- An instruction that completes by writing one register keeps all the rest. -/
theorem State.setReg_advance_keepsAllBut (s : State) (i : Fin 8) (v : Byte) (k : Nat) :
    KeepsAllBut [i] s ((s.setReg i v).advance k) :=
  ⟨fun _ hr => s.setReg_reg_other v (List.ne_of_not_mem_cons hr), rfl, rfl, ⟨rfl, fun _ _ => rfl⟩,
    rfl, rfl, rfl, rfl, rfl, rfl, rfl⟩

end

/-! ### The statements -/

/-- Settles O29, by whether the value of Rb names a register: it names one at most, and 8 or more names none. -/
theorem ldsCopiesTheIndexedRegister : Obligations.LdsCopiesTheIndexedRegister := by
  refine TwoRegisterRule.ofEffect (m := .lds) rfl (fun _ _ => rfl) (fun _ _ => rfl) fun i j s => ?_
  rcases regIndex_cases (s.reg j) with ⟨k, hk, -⟩ | ⟨hout, -⟩
  · have hval : (s.reg j).toNat = k.val := by rw [hk, regByte_toNat]
    refine ⟨_, exec_lds s i j hk, fun hout => absurd hout (by omega), fun k' hk' => ?_⟩
    obtain rfl : k' = k := Fin.ext (hk'.symm.trans hval)
    exact ⟨s.setReg_reg_same i _, rfl, s.setReg_advance_keepsAllBut i _ 3⟩
  · exact ⟨_, exec_lds_index_illegal s i j hout, fun _ => s.raise_illegalHalt _,
      fun k hk => absurd hk (by omega)⟩

/-- Settles O28: LDI is a register write, with one register byte to check. -/
theorem ldiWritesImmediate : Obligations.LdiWritesImmediate :=
  ⟨fun _ _ => rfl, operandFetchTraps .ldi, fun _ _ s hr => exec_firstRegister_illegal s rfl hr,
    fun i imm s => ⟨_, exec_ldi s i imm, s.setReg_reg_same i imm, rfl,
      s.setReg_advance_keepsAllBut i imm 3⟩⟩

end Sys2Proof.Machine

/-! SUPPORT. The ALU (spec/41_alu.md): its results as numbers, and what is left of a rule when the instruction writes
one register, or none. -/

namespace Sys2Proof.Machine

section
variable {n : Instr} {s : State}

/-! ### Byte results as numbers (spec/10_state.md R21, spec/41_alu.md R111 to R118) -/

theorem Byte.toNat_eq_zero_iff {b : Byte} : b.toNat = 0 ↔ b = 0x00#8 :=
  BitVec.toNat_inj (y := 0x00#8)

theorem Byte.beq_iff_toNat_eq (a b : Byte) : (a == b) = true ↔ a.toNat = b.toNat :=
  beq_iff_eq.trans BitVec.toNat_inj.symm

theorem Byte.toNat_sub_emod (a b : Byte) :
    ((a - b).toNat : Int) = ((a.toNat : Int) - b.toNat) % 256 := by
  have hsub : (a - b).toNat = (256 - b.toNat + a.toNat) % 256 := BitVec.toNat_sub a b
  have hb := Byte.toNat_le b
  omega

/-! ### The two outcomes of DIV (spec/41_alu.md R114) -/

theorem aluApply_div_result {a b : Byte} (h : b.toNat ≠ 0) :
    (aluApply .div a b).result = some (a / b) :=
  if_neg (mt Byte.toNat_eq_zero_iff.2 h)

theorem aluApply_div_result_zero {a b : Byte} (h : b.toNat = 0) :
    (aluApply .div a b).result = none :=
  if_pos (Byte.toNat_eq_zero_iff.1 h)

/-! ### The rule of an instruction that writes a register, or none (spec/41_alu.md R110) -/

/-- Of the rule of an instruction with one register operand only the effect is the instruction's own. -/
theorem OneRegisterRule.ofEffect {m : Mnemonic} {build : Byte → Instr}
    {done : Fin 8 → State → State → Prop} (hm : m.arity = 1)
    (henc : ∀ r, encode defaultOpcodeMap (build r) = [defaultOpcodeMap m, r])
    (hregs : ∀ r, (build r).regOperands = [r])
    (heff : ∀ i s, ∃ t, exec (build (regByte i)) s = .next t ∧ done i s t) :
    OneRegisterRule (defaultOpcodeMap m) build done :=
  ⟨henc, hm ▸ operandFetchTraps m, fun r s => exec_firstRegister_illegal s (hregs r), heff⟩

/-- What is true of the byte written is true of the register afterwards, and all else but pc is kept. -/
theorem exists_next_of_setReg_advance {i : Fin 8} {v : Byte} {k : Nat} (P : Byte → Prop)
    (h : exec n s = .next ((s.setReg i v).advance k)) (hv : P v) :
    ∃ t, exec n s = .next t ∧ P (t.reg i) ∧ t.pc = s.pc + k ∧ KeepsAllBut [i] s t :=
  ⟨_, h, by simpa using hv, rfl, s.setReg_advance_keepsAllBut i v k⟩

/-- An instruction that only goes on to the next keeps all but pc. -/
theorem State.advance_keepsAllBut (s : State) (d : List (Fin 8)) (k : Nat) :
    KeepsAllBut d s (s.advance k) :=
  ⟨fun _ _ => rfl, rfl, rfl, ⟨rfl, fun _ _ => rfl⟩, rfl, rfl, rfl, rfl, rfl, rfl, rfl⟩

end

/-! ### The statements -/

/-- Settles O30: a byte sum is the sum modulo 256. -/
theorem addWritesSumModulo256 : Obligations.AddWritesSumModulo256 :=
  TwoRegisterRule.ofEffect (m := .add) rfl (fun _ _ => rfl) (fun _ _ => rfl) fun i j s =>
    exists_next_of_setReg_advance (·.toNat = _) (exec_add s i j) (BitVec.toNat_add _ _)

/-- Settles O31: a byte difference is the integers' difference modulo 256. -/
theorem subWritesDifferenceModulo256 : Obligations.SubWritesDifferenceModulo256 :=
  TwoRegisterRule.ofEffect (m := .sub) rfl (fun _ _ => rfl) (fun _ _ => rfl) fun i j s =>
    exists_next_of_setReg_advance (fun v => (v.toNat : Int) = _) (exec_sub s i j)
      (Byte.toNat_sub_emod _ _)

/-- Settles O32: a byte product is the product modulo 256. -/
theorem mulWritesProductModulo256 : Obligations.MulWritesProductModulo256 :=
  TwoRegisterRule.ofEffect (m := .mul) rfl (fun _ _ => rfl) (fun _ _ => rfl) fun i j s =>
    exists_next_of_setReg_advance (·.toNat = _) (exec_mul s i j) (BitVec.toNat_mul _ _)

/-- Settles O33, by whether the divisor is zero: DIV then only advances, and else it writes the quotient. -/
theorem divWritesQuotientOrNothing : Obligations.DivWritesQuotientOrNothing := by
  refine TwoRegisterRule.ofEffect (m := .div) rfl (fun _ _ => rfl) (fun _ _ => rfl) fun i j s => ?_
  by_cases hzero : (s.reg j).toNat = 0
  · exact ⟨_, exec_div_zero s i j (Byte.toNat_eq_zero_iff.1 hzero), absurd hzero, fun _ => rfl, rfl,
      s.advance_keepsAllBut [i] 3⟩
  · obtain ⟨t, ht, hquot, hrest⟩ := exists_next_of_setReg_advance (· = s.reg i / s.reg j)
      (exec_div s i j (mt Byte.toNat_eq_zero_iff.2 hzero)) rfl
    exact ⟨t, ht, fun _ => hquot ▸ BitVec.toNat_udiv, fun h => absurd h hzero, hrest⟩

/-- Settles O36: the equality of two bytes is that of their numbers. -/
theorem cmpWritesEqualFlag : Obligations.CmpWritesEqualFlag :=
  TwoRegisterRule.ofEffect (m := .cmp) rfl (fun _ _ => rfl) (fun _ _ => rfl) fun i j s =>
    ⟨_, exec_cmp s i j, Byte.beq_iff_toNat_eq _ _, rfl, fun _ _ => rfl, rfl, ⟨rfl, fun _ _ => rfl⟩,
      rfl, rfl, rfl, rfl, rfl, rfl, rfl⟩

/-- Settles O34: INC adds the byte 1. -/
theorem incAddsOneModulo256 : Obligations.IncAddsOneModulo256 :=
  OneRegisterRule.ofEffect (m := .inc) rfl (fun _ => rfl) (fun _ => rfl) fun i s =>
    exists_next_of_setReg_advance (·.toNat = _) (exec_inc s i) (BitVec.toNat_add _ 1)

/-- Settles O35: DEC subtracts the byte 1. -/
theorem decSubtractsOneModulo256 : Obligations.DecSubtractsOneModulo256 :=
  OneRegisterRule.ofEffect (m := .dec) rfl (fun _ => rfl) (fun _ => rfl) fun i s =>
    exists_next_of_setReg_advance (fun v => (v.toNat : Int) = _) (exec_dec s i)
      (Byte.toNat_sub_emod _ 1)

/-- Settles O37, operation by operation; only DIV's result turns on its divisor. -/
theorem aluComputesModulo256 : Obligations.AluComputesModulo256 := fun a b =>
  ⟨⟨_, rfl, BitVec.toNat_add a b⟩,
    ⟨_, rfl, Byte.toNat_sub_emod a b⟩,
    ⟨_, rfl, BitVec.toNat_mul a b⟩,
    ⟨_, rfl, BitVec.toNat_add a 1⟩,
    ⟨_, rfl, Byte.toNat_sub_emod a 1⟩,
    fun hb => ⟨_, aluApply_div_result hb, BitVec.toNat_udiv⟩,
    aluApply_div_result_zero,
    rfl,
    Byte.beq_iff_toNat_eq a b⟩

end Sys2Proof.Machine

/-! SUPPORT. The jumps (spec/42_branch.md): the frame of a write of pc, and what a jump that FL decides does in
both cases. -/

namespace Sys2Proof.Machine

section
variable {n : Instr} {s : State}

/-! ### A write of pc (spec/10_state.md R25, spec/42_branch.md R143) -/

/-- An instruction that completes by writing pc keeps all the rest, wherever pc goes. -/
theorem State.setPc_keepsAllBut (s : State) (d : List (Fin 8)) (p : Nat) :
    KeepsAllBut d s (s.setPc p) :=
  ⟨fun _ _ => rfl, rfl, rfl, ⟨rfl, fun _ _ => rfl⟩, rfl, rfl, rfl, rfl, rfl, rfl, rfl⟩

/-! ### A jump taken on one value of FL (spec/42_branch.md R141, R142) -/

/-- A jump taken when FL is `b` goes to its register's value on `b`, goes on to the next instruction on the
other value, and keeps all but pc, FL included, on both. -/
theorem exists_next_of_jumpOnFlag {i : Fin 8} (b : Bool)
    (h : exec n s = .next (if s.fl = b then s.setPc (s.reg i).toNat else s.advance 2)) :
    ∃ t, exec n s = .next t ∧ (s.fl = b → t.pc = (s.reg i).toNat) ∧
      (s.fl = !b → t.pc = s.pc + 2) ∧ KeepsAllBut [] s t := by
  by_cases hfl : s.fl = b
  · rw [if_pos hfl] at h
    have hnot : s.fl ≠ !b := hfl ▸ Bool.self_ne_not _
    exact ⟨_, h, fun _ => rfl, fun hb => absurd hb hnot, s.setPc_keepsAllBut [] _⟩
  · rw [if_neg hfl] at h
    exact ⟨_, h, fun hb => absurd hb hfl, fun _ => rfl, s.advance_keepsAllBut [] 2⟩

end

/-! ### The statements -/

/-- Settles O39: JEQ is the jump taken when FL is true. -/
theorem jeqJumpsWhenEqual : Obligations.JeqJumpsWhenEqual :=
  OneRegisterRule.ofEffect (m := .jeq) rfl (fun _ => rfl) (fun _ => rfl) fun i s =>
    exists_next_of_jumpOnFlag true (exec_jeq s i)

/-- Settles O40: JNE is the jump taken when FL is false. -/
theorem jneJumpsWhenNotEqual : Obligations.JneJumpsWhenNotEqual :=
  OneRegisterRule.ofEffect (m := .jne) rfl (fun _ => rfl) (fun _ => rfl) fun i s =>
    exists_next_of_jumpOnFlag false (exec_jne s i)

/-- Settles O38: JMP writes pc with the register's value, whatever MEM_SIZE is. -/
theorem jmpGoesToTheRegister : Obligations.JmpGoesToTheRegister :=
  OneRegisterRule.ofEffect (m := .jmp) rfl (fun _ => rfl) (fun _ => rfl) fun i s =>
    ⟨_, exec_jmp s i, rfl, s.setPc_keepsAllBut [] _⟩

end Sys2Proof.Machine

/-! SUPPORT. The stack (spec/43_stack.md): the registers after PSH and after POP, and that POP undoes what
PSH did to them. -/

namespace Sys2Proof.Machine

section
variable {s t : State} {i : Fin 8}

/-! ### The stack pointer (spec/43_stack.md R151, R152) -/

/-- Incrementing the SP that PSH leaves gives back the SP before it, modulo 256 too. -/
theorem pushSp_add_one (s : State) : pushSp s + 1 = s.reg 7 :=
  BitVec.sub_add_cancel s.sp 1

/-- SP after a register write is the byte written when the register is R7. -/
theorem State.setReg_sp (s : State) (i : Fin 8) (v : Byte) :
    (s.setReg i v).sp = if i = 7 then v else s.reg 7 :=
  s.setReg_reg i 7 v

theorem exec_pop_sp {v : Byte} (hv : s.mem.byte? s.sp.toNat = some v)
    (h : exec (.pop (regByte i)) s = .next t) : t.reg 7 = (if i = 7 then v else s.reg 7) + 1 := by
  rw [exec_pop s i hv] at h; cases h
  rw [← State.setReg_sp]
  exact State.setReg_reg_same _ 7 _

/-! ### The frames of PSH and POP -/

/-- Of the registers PSH writes R7 alone. -/
theorem exec_psh_regs (ha : (pushSp s).toNat < s.mem.size)
    (h : exec (.psh (regByte i)) s = .next t) : t.reg 7 = pushSp s ∧ SameRegsBut [7] s t := by
  rw [exec_psh s i ha] at h; cases h
  exact ⟨State.setReg_reg_same _ 7 _,
    fun _ hr => State.setReg_reg_other _ _ (List.ne_of_not_mem_cons hr)⟩

/-- An instruction that completes by writing two registers keeps all the rest. -/
theorem State.setReg_setReg_advance_keepsAllBut (s : State) (i j : Fin 8) (v w : Byte) (k : Nat) :
    KeepsAllBut [i, j] s (((s.setReg i v).setReg j w).advance k) := by
  refine ⟨fun r hr => ?_, rfl, rfl, ⟨rfl, fun _ _ => rfl⟩, rfl, rfl, rfl, rfl, rfl, rfl, rfl⟩
  obtain ⟨hi, hj⟩ : r ≠ i ∧ r ≠ j := by simpa using hr
  exact (State.setReg_reg_other _ w hj).trans (s.setReg_reg_other v hi)

/-! ### POP directly after PSH (spec/43_stack.md R153) -/

/-- POP after PSH of the same register loads the pushed byte back, and leaves in R7 its value before PSH:
when the register is R7 itself, the byte that POP loads and increments is the decremented SP. -/
theorem exec_pop_of_exec_psh (ha : (pushSp s).toNat < s.mem.size)
    (h : exec (.psh (regByte i)) s = .next t) :
    exec (.pop (regByte i)) t =
      .next (((t.setReg i (pushValue s i)).setReg 7 (s.reg 7)).advance 2) := by
  obtain ⟨h7, -⟩ := exec_psh_regs ha h
  have hbyte : t.mem.byte? t.sp.toNat = some (pushValue s i) := by
    rw [sp_eq, h7]
    exact exec_psh_byte? ha h
  have hsp : (t.setReg i (pushValue s i)).sp = pushSp s := by
    rw [State.setReg_sp, h7, pushValue_eq]
    split <;> rfl
  rw [exec_pop t i hbyte, hsp, pushSp_add_one]
  rfl

/-- Writing the pushed byte and the old SP back restores every register when PSH changed R7 alone. -/
theorem State.reg_of_restore (hkept : SameRegsBut [7] s t) (r : Fin 8) :
    ((t.setReg i (pushValue s i)).setReg 7 (s.reg 7)).reg r = s.reg r := by
  by_cases h7 : r = 7
  · rw [h7, State.setReg_reg_same]
  · rw [State.setReg_reg_other _ _ h7]
    by_cases hi : r = i
    · rw [← hi, State.setReg_reg_same, pushValue_eq, if_neg h7]
    · rw [State.setReg_reg_other _ _ hi, hkept r (by simpa using h7)]

end

/-! ### The statements -/

/-- Settles O41, by which side of MEM_SIZE the decremented SP lies on. -/
theorem pshStoresBelowTheStackPointer : Obligations.PshStoresBelowTheStackPointer := by
  refine ⟨fun s => Byte.toNat_sub_emod (s.reg 7) 1,
    OneRegisterRule.ofEffect (m := .psh) rfl (fun _ => rfl) (fun _ => rfl) fun i s => ?_⟩
  by_cases ha : (pushSp s).toNat < s.mem.size
  · have hpush := exec_psh s i ha
    obtain ⟨h7, hkept⟩ := exec_psh_regs ha hpush
    exact ⟨_, hpush, fun hout => absurd ha hout.not_gt, fun _ =>
      ⟨exec_psh_byte? ha hpush, s.setMem_set_sameMemoryBut _ _, h7, hkept, rfl, rfl, rfl,
        rfl, rfl, rfl, rfl, rfl, rfl, rfl⟩⟩
  · exact ⟨_, exec_psh_trap s i (Nat.le_of_not_lt ha), fun _ => s.raise_addressHalt _ _,
      fun h => absurd h ha⟩

/-- Settles O42, by whether SP is an address of memory; R7 is incremented as it stands after the load. -/
theorem popLoadsFromTheStackPointer : Obligations.PopLoadsFromTheStackPointer := by
  refine OneRegisterRule.ofEffect (m := .pop) rfl (fun _ => rfl) (fun _ => rfl) fun i s => ?_
  rcases memRead_cases .dataRead s.sp.toNat s with ⟨v, hv, -⟩ | ⟨hout, -⟩
  · have hpop := exec_pop s i hv
    have h7 := exec_pop_sp hv hpop
    refine ⟨_, hpop, fun hout => absurd (Memory.lt_of_byte?_eq_some hv) hout.not_gt, fun v' hv' => ?_⟩
    obtain rfl : v = v' := Option.some.inj (hv.symm.trans hv')
    refine ⟨fun hi => ?_, fun hi => ⟨?_, ?_⟩, rfl, s.setReg_setReg_advance_keepsAllBut i 7 v _ 2⟩
    · rw [h7, if_pos hi]
      exact BitVec.toNat_add v 1
    · exact (State.setReg_reg_other _ _ hi).trans (s.setReg_reg_same i v)
    · rw [h7, if_neg hi]
      exact BitVec.toNat_add (s.reg 7) 1
  · exact ⟨_, exec_pop_trap s i hout, fun _ => s.raise_addressHalt _ _,
      fun v hv => absurd (Memory.lt_of_byte?_eq_some hv) hout.not_gt⟩

/-- Settles O52: POP loads the byte that PSH stored, and writes no memory. -/
theorem pshThenPopRestoresRegisters : Obligations.PshThenPopRestoresRegisters := by
  intro i s ha
  have hpush := exec_psh s i ha
  have hbyte := exec_psh_byte? ha hpush
  obtain ⟨-, hkept⟩ := exec_psh_regs ha hpush
  exact ⟨_, _, hpush, exec_pop_of_exec_psh ha hpush, State.reg_of_restore hkept,
    hbyte, s.setMem_set_sameMemoryBut _ _,
    rfl, rfl, rfl, rfl, rfl, rfl, rfl, rfl, rfl, rfl⟩

end Sys2Proof.Machine

/-! SUPPORT. Machine control (spec/44_machine_control.md): the frame of a halt, and the steps that a reserved and an
invalid opcode take. -/

namespace Sys2Proof.Machine

section
variable {map : OpcodeMap} {s : State} {m : Mnemonic} {b : Byte}

/-! ### A halt without fault information (spec/44_machine_control.md R163, R164) -/

/-- Halting writes RUN and CAUSE alone. -/
theorem State.halt_plainHalt (s : State) (c : HaltCause) : PlainHalt c.code s (s.halt c) :=
  ⟨rfl, rfl, rfl, rfl, rfl, fun _ _ => rfl, rfl, rfl, rfl, ⟨rfl, fun _ _ => rfl⟩, rfl, rfl⟩

theorem exec_reserved_plainHalt {n : Instr} (s : State) (hn : n.mnemonic = some m)
    (hm : m.isReserved = true) : ∃ t, exec n s = .next t ∧ PlainHalt 3#3 s t :=
  ⟨_, exec_reserved s hn hm, s.halt_plainHalt .reservedOpcode⟩

theorem exec_invalid_plainHalt (s : State) (b : Byte) :
    ∃ t, exec (.invalid b) s = .next t ∧ PlainHalt 2#3 s t :=
  ⟨_, exec_invalid s b, s.halt_plainHalt .invalidOpcode⟩

/-! ### The steps that read no operand byte (spec/30_encoding.md R86) -/

theorem Mnemonic.arity_of_isReserved (h : m.isReserved = true) : m.arity = 0 := by
  cases m with
  | cal | ret | int | irt | str | pra => rfl
  | nop | ldi | lds | add | sub | mul | div | inc | dec | cmp | jmp | jeq | jne | psh | pop | prn
  | hlt => cases h

/-- A cycle of a reserved opcode has no operand byte to trap at, so it executes the opcode's instruction. -/
theorem stepWith_reserved_plainHalt (hmap : map.Admissible) (hm : m.isReserved = true)
    (hc : s.canCycle = true) (hop : s.mem.byte? s.pc = some (map m)) :
    ∃ t, stepWith map s = .next t ∧ PlainHalt 3#3 (s.setIr (map m)) t := by
  have hcl := classify_map hmap m
  rcases stepWith_opcode (map := map) hc hop with
    ⟨j, m', hm', h1, hj, -, -⟩ | ⟨hm', -⟩ | ⟨m', n, bs, hm', hn, -, -, -, -, hs⟩
  · rw [hcl] at hm'; cases hm'
    rw [Mnemonic.arity_of_isReserved hm] at hj
    omega
  · rw [hcl] at hm'; cases hm'
  · rw [hcl] at hm'; cases hm'
    rw [hs]
    exact exec_reserved_plainHalt _ hn hm

/-- A cycle of a byte that is no opcode of the map executes the invalid opcode. -/
theorem stepWith_invalid_plainHalt (hb : ∀ m, map m ≠ b) (hc : s.canCycle = true)
    (hop : s.mem.byte? s.pc = some b) :
    ∃ t, stepWith map s = .next t ∧ PlainHalt 2#3 (s.setIr b) t := by
  rcases stepWith_opcode (map := map) hc hop with
    ⟨j, m, hm, -⟩ | ⟨-, hs⟩ | ⟨m, n, bs, hm, -⟩
  · exact absurd (map_of_classify hm) (hb m)
  · rw [hs]
    exact exec_invalid_plainHalt _ b
  · exact absurd (map_of_classify hm) (hb m)

/-! ### The output (spec/44_machine_control.md R161) -/

/-- The element of OUT that a cycle adds is the byte it delivers. -/
theorem emitted_of_out {t : State} (h : t.out = s.out ++ [b]) : emitted s t = some b := by
  rw [emitted, h, List.getElem?_concat_length]

end

/-! ### The statements -/

/-- Settles O14: the six instructions are those of reserved mnemonics, and a step of their opcode executes one. -/
theorem reservedOpcodesHalt : Obligations.ReservedOpcodesHalt := by
  refine ⟨rfl, rfl, rfl, rfl, rfl, rfl, fun i s hi => ?_,
    fun _ _ _ => stepWith_reserved_plainHalt⟩
  have hres : ∀ i ∈ [Instr.cal, .ret, .int, .irt, .str, .pra],
      i.mnemonic.any Mnemonic.isReserved = true := by decide
  obtain ⟨m, hn, hm⟩ := (Option.any_eq_true _ _).1 (hres i hi)
  exact exec_reserved_plainHalt s hn hm

/-- Settles O15: a step of a byte that is no opcode executes the invalid opcode, whatever the map. -/
theorem invalidOpcodesHalt : Obligations.InvalidOpcodesHalt :=
  ⟨fun b s => exec_invalid_plainHalt s b, fun _ _ _ => stepWith_invalid_plainHalt⟩

/-- Settles O43: NOP's effect is the advance of pc. -/
theorem nopOnlyAdvances : Obligations.NopOnlyAdvances :=
  ⟨rfl, fun s => ⟨_, exec_nop s, rfl, s.advance_keepsAllBut [] 1⟩⟩

/-- Settles O44: PRN is an append to OUT, with one register byte to check. -/
theorem prnEmitsTheRegister : Obligations.PrnEmitsTheRegister :=
  OneRegisterRule.ofEffect (m := .prn) rfl (fun _ => rfl) (fun _ => rfl) fun i s =>
    ⟨_, exec_prn s i, rfl, emitted_of_out rfl, rfl, fun _ _ => rfl, rfl, ⟨rfl, fun _ _ => rfl⟩,
      rfl, rfl, rfl, rfl, rfl, rfl, rfl⟩

/-- Settles O45: HLT's effect is the advance of pc and then the halt with cause HLT. -/
theorem hltAdvancesAndHalts : Obligations.HltAdvancesAndHalts := by
  refine ⟨rfl, fun s => ⟨_, exec_hlt s, rfl, ?_⟩⟩
  obtain ⟨hrun, hcause, hfaddr, hfkind, hfreg, hregs, -, hfl, hir, hmem, hout, hen⟩ :=
    (s.advance 1).halt_plainHalt .hlt
  exact ⟨hrun, hcause, hfaddr, hfkind, hfreg, hir, hen, hregs, hfl, hout, hmem⟩

end Sys2Proof.Machine

/-! SUPPORT. Exceptions (spec/60_exceptions.md): the order in which an instruction's checks run. -/

namespace Sys2Proof.Machine

section
variable {map : OpcodeMap} {s : State} {n : Instr} {op : Byte}

/-! ### The checks after the operand fetch (spec/60_exceptions.md R183, R188) -/

/-- A cycle whose bytes from pc on decode executes their instruction in the state whose IR holds its opcode. -/
theorem stepWith_of_bytesFrom (hc : s.canCycle = true) (hop : s.mem.byte? s.pc = some op)
    (hd : decode map (s.mem.bytesFrom s.pc maxLength) = .ok n) :
    stepWith map s = exec n (s.setIr op) := by
  obtain ⟨op', hop', hs⟩ := stepRunsDecodedInstruction.1 map s n hc hd
  obtain rfl : op = op' := Option.some.inj (hop.symm.trans hop')
  exact hs

/-- DIV has no check of its own: on registers that exist it keeps the status, whatever the divisor is. -/
theorem exec_div_sameStatus (i j : Fin 8) (s : State) :
    ∃ t, exec (.div (regByte i) (regByte j)) s = .next t ∧ SameStatus s t := by
  obtain ⟨-, -, -, -, heffect⟩ := divWritesQuotientOrNothing
  obtain ⟨t, ht, -, -, -, -, -, -, -, hstatus⟩ := heffect i j s
  exact ⟨t, ht, hstatus⟩

end

/-! ### The statements -/

/-- Settles O17: the checks of the fetch are those of a step, and the later ones those of the decoded instruction,
which finds registers, stack pointer and memory as they were before the fetch. -/
theorem checksRunInFixedOrder : Obligations.ChecksRunInFixedOrder := by
  refine fun map s hmap hc => ⟨(opcodeFetchWritesIrOrTraps map s hc).1,
    fun m hm hop => stepWith_reserved_plainHalt hmap hm hc hop,
    fun b hb hop => stepWith_invalid_plainHalt hb hc hop,
    fun m j _ hop h1 hj hend => ⟨_, stepWith_missingOperand hmap hc hop h1 hj hend,
      State.raise_addressHalt _ _ _⟩,
    fun i op hop hd => ?_⟩
  rw [stepWith_of_bytesFrom hc hop hd]
  refine ⟨fun b hb => ?register, ?ldsIndex, ?pshAddress, ?popAddress, ?div⟩
  case register => exact ⟨_, exec_illegal hb, State.raise_illegalHalt _ b⟩
  case ldsIndex =>
    rintro x y rfl hy
    exact ⟨_, exec_lds_index_illegal (s.setIr op) x y hy, State.raise_illegalHalt _ _⟩
  case pshAddress =>
    rintro x rfl ha
    exact ⟨_, exec_psh_trap (s.setIr op) x ha, State.raise_addressHalt _ _ _⟩
  case popAddress =>
    rintro x rfl ha
    exact ⟨_, exec_pop_trap (s.setIr op) x ha, State.raise_addressHalt _ _ _⟩
  case div =>
    rintro x y rfl
    exact exec_div_sameStatus x y (s.setIr op)

end Sys2Proof.Machine

/-! SUPPORT. The host (spec/70_reset_and_hazards.md): what a load does on each side of MEM_SIZE, the boot sequence, and
what cycles, starts and stops make of a run and of ld_err. -/

namespace Sys2Proof.Machine

section
variable {map : OpcodeMap} {s : State} {a : Nat} {v : Byte} {bs : List Byte} {y : System} {e : Event}
  {es : List Event}

/-! ### One load (spec/70_reset_and_hazards.md R212, R213) -/

theorem Memory.set_outside {m : Memory} (v : Byte) (h : m.size ≤ a) : m.set a v = m :=
  if_neg h.not_gt

theorem hostState_load_stopped (hc : s.canCycle = false) :
    hostState (.load a v) s = s.setMem (s.mem.set a v) := by
  simp [hostState, hc]

theorem hostState_load_running (hc : s.canCycle = true) : hostState (.load a v) s = s := by
  simp [hostState, hc]

theorem hostState_load_outside (hc : s.canCycle = false) (ha : s.mem.size ≤ a) :
    hostState (.load a v) s = s := by
  rw [hostState_load_stopped hc, Memory.set_outside v ha]
  rfl

theorem hostReply_load_running (hc : s.canCycle = true) :
    hostReply (.load a v) s = .notPermitted := by
  simp [hostReply, hc]

theorem hostReply_load_inside (hc : s.canCycle = false) (ha : a < s.mem.size) :
    hostReply (.load a v) s = .done := by
  simp [hostReply, hc, ha]

theorem hostReply_load_outside (hc : s.canCycle = false) (ha : s.mem.size ≤ a) :
    hostReply (.load a v) s = .addressOutOfRange a := by
  simp [hostReply, hc, ha.not_gt]

/-! ### The invariant after a host operation -/

theorem State.Inv.setEn (hi : s.Inv) (b : Bool) : (s.setEn b).Inv :=
  { hi with }

theorem State.Inv.hostState_load (hi : s.Inv) (a : Nat) (v : Byte) :
    (hostState (.load a v) s).Inv := by
  cases hc : s.canCycle with
  | true => rw [hostState_load_running hc]; exact hi
  | false => rw [hostState_load_stopped hc]; exact hi.setMem_set a v

/-! ### The boot sequence (spec/70_reset_and_hazards.md R217) -/

/-- Storing a row of bytes changes no address after it. -/
theorem Memory.byte?_setBytes_after (m : Memory) {a b : Nat} (bs : List Byte) (h : a + bs.length ≤ b) :
    (m.setBytes a bs).byte? b = m.byte? b := by
  induction bs generalizing m a with
  | nil => rfl
  | cons v bs ih =>
    rw [List.length_cons] at h
    rw [Memory.setBytes, ih _ (by omega), Memory.byte?_set_other _ _ (by omega)]

/-- A row of bytes stored from address 0 in the memory of a reset is read back with zeros after it. -/
theorem byte?_setBytes_resetWith {size : Nat} (hlen : bs.length ≤ size) (ha : a < size) :
    ((State.resetWith size).mem.setBytes 0 bs).byte? a = some (bs.getD a 0x00#8) := by
  rcases Nat.lt_or_ge a bs.length with h | h
  · rw [List.getD_eq_getElem bs _ h]
    simpa using byte?_setBytes (m := (State.resetWith size).mem) (a := 0)
      ((Nat.zero_add _).trans_le hlen) (List.getElem?_eq_getElem h)
  · rw [List.getD_eq_default bs _ h, Memory.byte?_setBytes_after _ _ (by omega),
      State.resetWith_byte? ha]

/-- Loads that all lie inside memory store the bytes one after the other. -/
theorem loadBytes_inside (hc : s.canCycle = false) (h : a + bs.length ≤ s.mem.size) :
    loadBytes s a bs = .ok (s.setMem (s.mem.setBytes a bs)) := by
  induction bs generalizing s a with
  | nil => rfl
  | cons b bs ih =>
    rw [List.length_cons] at h
    rw [loadBytes, hostReply_load_inside hc (by omega), hostState_load_stopped hc]
    exact ih (s := s.setMem (s.mem.set a b)) hc (by rw [State.setMem_mem, Memory.set_size]; omega)

/-- Loads that begin inside memory and run beyond it stop at the first address outside, which is MEM_SIZE. -/
theorem loadBytes_outside (hc : s.canCycle = false) (ha : a ≤ s.mem.size)
    (h : s.mem.size < a + bs.length) :
    loadBytes s a bs = .error (.addressOutOfRange s.mem.size) := by
  induction bs generalizing s a with
  | nil => exact absurd h ha.not_gt
  | cons b bs ih =>
    rw [List.length_cons] at h
    rcases ha.lt_or_eq with ha | rfl
    · have hsize : (s.setMem (s.mem.set a b)).mem.size = s.mem.size := Memory.set_size _ _ _
      rw [loadBytes, hostReply_load_inside hc ha, hostState_load_stopped hc, ← hsize]
      exact ih (s := s.setMem (s.mem.set a b)) hc (by omega) (by omega)
    · rw [loadBytes, hostReply_load_outside hc le_rfl]

/-- After the reset no cycle may run, so every load of a program that fits is performed. -/
theorem boot_inside (hlen : bs.length ≤ s.mem.size) :
    boot bs s = .ok (((State.resetWith s.mem.size).setMem
      ((State.resetWith s.mem.size).mem.setBytes 0 bs)).setEn true) := by
  have hload : loadBytes (hostState .reset s) 0 bs = _ :=
    loadBytes_inside rfl ((Nat.zero_add _).trans_le hlen)
  rw [boot, hload]; rfl

theorem boot_outside (hlen : s.mem.size < bs.length) :
    boot bs s = .error (.addressOutOfRange s.mem.size) := by
  have hload : loadBytes (hostState .reset s) 0 bs = _ :=
    loadBytes_outside rfl (Nat.zero_le _) (hlen.trans_eq (Nat.zero_add _).symm)
  rw [boot, hload]; rfl

/-! ### Cycles, starts and stops (spec/70_reset_and_hazards.md R214, R224) -/

theorem onlyRunAndPause_cons :
    OnlyRunAndPause (e :: es) ↔
      (e = .cycle ∨ e = .host .start ∨ e = .host .stop) ∧ OnlyRunAndPause es :=
  List.forall_mem_cons

theorem State.setEn_eq_self {b : Bool} (h : s.en = b) : s.setEn b = s := by
  subst h; rfl

theorem next_en (map : OpcodeMap) (s : State) : (next map s).en = s.en :=
  (stepsKeepMemorySizeAndEnable map s _ (stepWith_eq_next map s)).2

/-- A step of time is one enabled step when EN = 1 and none when EN = 0. -/
theorem next_setEn (map : OpcodeMap) (s : State) :
    (next map s).setEn true = runFor map s.en.toNat (s.setEn true) := by
  cases h : s.en with
  | false => rw [next_wait (by simp [State.canCycle, h])]; rfl
  | true => rw [State.setEn_eq_self ((next_en map s).trans h), State.setEn_eq_self h]; rfl

/-- Cycles, starts and stops take the core, but for EN, one enabled step further per cycle while EN = 1. -/
theorem System.acts_setEn (hes : OnlyRunAndPause es) :
    (y.acts map es).core.setEn true =
      runFor map (enabledCycles y.core.en es) (y.core.setEn true) := by
  induction es generalizing y with
  | nil => rfl
  | cons e es ih =>
    obtain ⟨he, hes⟩ := onlyRunAndPause_cons.1 hes
    rw [System.acts_cons, ih hes]
    rcases he with rfl | rfl | rfl
    · rw [System.act_cycle_core, next_en, next_setEn, enabledCycles_cycle, Nat.add_comm, runFor_add]
    · rfl
    · rfl

/-! ### ld_err (spec/70_reset_and_hazards.md R216) -/

theorem System.acts_ldErr (hes : OnlyRunAndPause es) : (y.acts map es).ldErr = y.ldErr := by
  induction es generalizing y with
  | nil => rfl
  | cons e es ih =>
    obtain ⟨he, hes⟩ := onlyRunAndPause_cons.1 hes
    rw [System.acts_cons, ih hes]
    rcases he with rfl | rfl | rfl <;> rfl

end

/-! ### The statements -/

/-- Settles O24, by the four operations: a load writes a cell or nothing, and start and stop write EN alone. -/
theorem everyHostOperationKeepsInvariant : Obligations.EveryHostOperationKeepsInvariant := by
  intro op s hi
  cases op with
  | reset => exact State.resetWith_inv hi.sizePos
  | load a v => exact hi.hostState_load a v
  | start => exact hi.setEn true
  | stop => exact hi.setEn false

/-- Settles O54: a permitted load is one write of memory, which is none outside the array. -/
theorem loadWritesOneCell : Obligations.LoadWritesOneCell := by
  refine fun s a v => ⟨fun hc ha => ⟨hostReply_load_inside hc ha, hostState_load_byte? hc ha, ?_⟩,
    fun hc ha => ⟨hostReply_load_outside hc ha, hostState_load_outside hc ha⟩,
    fun hc => ⟨hostReply_load_running hc, hostState_load_running hc⟩⟩
  rw [hostState_load_stopped hc]
  exact ⟨s.setMem_set_sameMemoryBut a v, rfl⟩

/-- Settles O55: the host's start and stop are the state's write of EN. -/
theorem startAndStopWriteEnableOnly : Obligations.StartAndStopWriteEnableOnly :=
  fun s => ⟨s.setEn_en true, rfl, s.setEn_en false, rfl⟩

/-- Settles O56, by whether the program fits. -/
theorem bootPlacesTheProgram : Obligations.BootPlacesTheProgram :=
  fun _ _ => ⟨fun hlen => ⟨_, boot_inside hlen, Memory.setBytes_size _ _ _,
    fun _ => byte?_setBytes_resetWith hlen, rfl, rfl⟩, boot_outside⟩

/-- Settles O57: each cycle while EN = 1 adds a step to the run, and a halted engine takes no further one. -/
theorem stopsDoNotChangeARun : Obligations.StopsDoNotChangeARun := by
  refine fun map y es hes => ⟨System.acts_setEn hes, fun hh k hk => ?_⟩
  obtain ⟨d, rfl⟩ := Nat.exists_eq_add_of_le hk
  rw [runFor_add, ← System.acts_setEn hes]
  exact runFor_halted (s := (y.acts map es).core.setEn true) hh d

/-- Settles O58: the load or the reset sets ld_err, and the events after it leave it. -/
theorem loadErrorTellsOfTheLastLoad : Obligations.LoadErrorTellsOfTheLastLoad := by
  refine fun map y es hes => ⟨System.acts_ldErr hes, fun a v hc => ?_, System.acts_ldErr hes,
    fun a v hc => ?_⟩
  · rw [System.acts_ldErr hes, System.act_load_ldErr, hc]
    exact decide_eq_true_iff
  · rw [System.acts_ldErr hes, System.act_load_ldErr, hc]; rfl

end Sys2Proof.Machine
